-- ==== Sys2Proof/Word.lean ====
section
/-! DEFINITION. The word types of the SHT-CCU (00_scope.md R8, R11). Every register of the window is 32 bits wide. -/

namespace Sys2Proof

/-- A 32-bit register value (R8 "register width 32 bits"); bit 0 is the least significant (R11). -/
abbrev Word := BitVec 32

/-- A u8: a wire byte, or the CRC accumulator (R35). -/
abbrev Byte := BitVec 8

/-- A byte offset into the 32-byte register window (R60). -/
abbrev Offset := BitVec 5

/-- The absolute-humidity lookup ROM: ten u32 entries, `lut(0)` to `lut(9)` (10_state.md R40). -/
abbrev AhLut := Vector Word 10

end Sys2Proof
end

