-- ==== Sys2Proof/Syntax.lean ====
section
/-! DEFINITION. The commands of the SHT-CCU: one constructor per row of spec/opcode_table.json (30_encoding.md R84).
A command word carries no operand (R81), so no constructor has an argument. -/

namespace Sys2Proof

/-- The sixteen commands, in the order of R84. -/
inductive Instr where
  | nop          -- NOP          (44_system.md R190)
  | srst         -- SRST         (44_system.md R191)
  | crcInit      -- CRC.INIT     (41_checksum.md R103)
  | crcByte      -- CRC.BYTE     (41_checksum.md R104)
  | crcWord      -- CRC.WORD     (41_checksum.md R105)
  | crcChkacc    -- CRC.CHKACC   (41_checksum.md R106)
  | crcGen16     -- CRC.GEN16    (41_checksum.md R107)
  | crcChk16     -- CRC.CHK16    (41_checksum.md R108)
  | convT        -- CONV.T       (42_tick_conversion.md R131)
  | convRh       -- CONV.RH      (42_tick_conversion.md R133)
  | convRh4      -- CONV.RH4     (42_tick_conversion.md R135)
  | convT2tick   -- CONV.T2TICK  (42_tick_conversion.md R140)
  | convRh2tick  -- CONV.RH2TICK (42_tick_conversion.md R142)
  | convAh       -- CONV.AH      (43_humidity_lut_and_scaler.md R161)
  | convC2f      -- CONV.C2F     (43_humidity_lut_and_scaler.md R170)
  | convF2c      -- CONV.F2C     (43_humidity_lut_and_scaler.md R172)
  deriving DecidableEq, Repr

end Sys2Proof
end

