-- ==== Sys2Proof/WellFormed.lean ====
section
/-! DEFINITION. The checks on raw data: a command word is legal (30_encoding.md R80, R86, R87), a lookup table meets its
constraints (10_state.md R41). A command itself has no field to check (R81). -/

namespace Sys2Proof

/-- Every command is well formed: it carries no register number, immediate or operand (R81). -/
def Instr.wellFormed : Instr → Bool
  | .nop | .srst | .crcInit | .crcByte | .crcWord | .crcChkacc | .crcGen16 | .crcChk16
  | .convT | .convRh | .convRh4 | .convT2tick | .convRh2tick | .convAh | .convC2f | .convF2c => true

/-- The unassigned opcodes, as the ranges R87 lists. -/
def unassignedRanges : List (Nat × Nat) :=
  [(0x02, 0x0F), (0x16, 0x1F), (0x25, 0x2F), (0x31, 0x3F), (0x42, 0xFF)]

/-- An opcode is in one of R87's ranges. -/
def opcodeUnassigned (op : BitVec 8) : Bool :=
  unassignedRanges.any fun r => r.1 ≤ op.toNat && op.toNat ≤ r.2

/-- A command word is legal: RSV = w[31:8] is 0 and OP = w[7:0] is assigned (R80, R86, R87). The decoder is written from the
opcode map of R84 instead; that the two agree is a statement. -/
def legalWord (w : Word) : Bool :=
  w.extractLsb' 8 24 == 0#24 && !opcodeUnassigned (w.extractLsb' 0 8)

/-- The constraints on AH_LUT (R41): (a) non-decreasing, (b) every entry at most 429496. -/
abbrev AhLut.Ok (t : AhLut) : Prop :=
  (∀ i : Fin 9, t[i.val].toNat ≤ t[i.val + 1].toNat) ∧ ∀ i : Fin 10, t[i.val].toNat ≤ 429496

end Sys2Proof
end

