-- ==== Sys2Proof/Decode.lean ====
section
/-! DEFINITION. The command decoder (30_encoding.md R85), and after it the encoder (R84). A command is one 32-bit word
(R80, R88): OP in bits [7:0], RSV in bits [31:8]. -/

namespace Sys2Proof

/-- Why a command word is illegal (R86). Both are ILLEGAL_OPERATION to the host (60_exceptions.md R202). -/
inductive IllegalWord where
  | reservedBits        -- RSV is not 0
  | unassignedOpcode    -- OP is not in the map of R84
  deriving DecidableEq, Repr

/-- OP, bits [7:0] of the command word (R80). -/
def opField (w : Word) : BitVec 8 := w.extractLsb' 0 8

/-- RSV, bits [31:8] of the command word (R80). -/
def rsvField (w : Word) : BitVec 24 := w.extractLsb' 8 24

/-- The opcode map of R84, read from opcode to command. -/
def Instr.ofOpcode (op : BitVec 8) : Option Instr :=
  match op with
  | 0x00#8 => some .nop
  | 0x01#8 => some .srst
  | 0x10#8 => some .crcInit
  | 0x11#8 => some .crcByte
  | 0x12#8 => some .crcWord
  | 0x13#8 => some .crcChkacc
  | 0x14#8 => some .crcGen16
  | 0x15#8 => some .crcChk16
  | 0x20#8 => some .convT
  | 0x21#8 => some .convRh
  | 0x22#8 => some .convRh4
  | 0x23#8 => some .convT2tick
  | 0x24#8 => some .convRh2tick
  | 0x30#8 => some .convAh
  | 0x40#8 => some .convC2f
  | 0x41#8 => some .convF2c
  | _ => none

/-- The decoder of R85: first the RSV check, then the opcode (the order of R206). Total on every 32-bit word. -/
def decode (w : Word) : Except IllegalWord Instr :=
  if rsvField w = 0#24 then
    match Instr.ofOpcode (opField w) with
    | some i => .ok i
    | none => .error .unassignedOpcode
  else .error .reservedBits

/-- The opcode of a command: the column OP of R84. -/
def Instr.opcode : Instr → BitVec 8
  | .nop => 0x00#8
  | .srst => 0x01#8
  | .crcInit => 0x10#8
  | .crcByte => 0x11#8
  | .crcWord => 0x12#8
  | .crcChkacc => 0x13#8
  | .crcGen16 => 0x14#8
  | .crcChk16 => 0x15#8
  | .convT => 0x20#8
  | .convRh => 0x21#8
  | .convRh4 => 0x22#8
  | .convT2tick => 0x23#8
  | .convRh2tick => 0x24#8
  | .convAh => 0x30#8
  | .convC2f => 0x40#8
  | .convF2c => 0x41#8

/-- "The full command word of each is `zext_32(OP)`" (R84). -/
def encode (i : Instr) : Word := i.opcode.setWidth 32

/-- The command a table row's word decodes to (log 18). The row's `nbits` low bits are `w`, every bit above them is 0, and
a command is exactly 32 bits (R88): a word with a bit above that is none. The unit takes the word as one 32-bit number
(20_memory.md R69), so no byte order enters. -/
def decodeTableWord (nbits w : Nat) : Option Instr :=
  let v := w % 2 ^ nbits
  if v < 2 ^ 32 then
    match decode (BitVec.ofNat 32 v) with
    | .ok i => some i
    | .error _ => none
  else none

end Sys2Proof
end

