-- ==== Sys2Proof/Machine/Params.lean ====
section
/-! DEFINITION. The fixed parameters of the SHT-CCU (00_scope.md R8). They are constants, not state (10_state.md R44). -/

namespace Sys2Proof.Machine

abbrev crcPoly : Byte := 0x31#8
abbrev crcInit : Byte := 0xFF#8

abbrev tSlope : Int := 21875
abbrev tOffset : Int := 45000
abbrev rhSlope : Int := 12500
abbrev rh4Slope : Int := 15625
abbrev rh4Offset : Int := 6000
/-- The shift of all three forward conversions. -/
abbrev tickShift : Nat := 13

abbrev invTMultiplier : Int := 12271
abbrev invTAddend : Int := 552195000
abbrev invRhMultiplier : Int := 21474
/-- The shift of both inverse conversions. -/
abbrev invShift : Nat := 15

/-- The domain of CONV.T2TICK (42_tick_conversion.md R141). -/
abbrev t2tickLo : Int := -45000
abbrev t2tickHi : Int := 130004
/-- The domain of CONV.RH2TICK (R143). -/
abbrev rh2tickLo : Int := 0
abbrev rh2tickHi : Int := 100003

abbrev tLo : Int := -20000
abbrev tStep : Nat := 10000
abbrev ahPreShift : Nat := 3
abbrev ahDivisor : Int := 12500
/-- The largest product of CONV.AH's domain, 2^32 - 1 (43_humidity_lut_and_scaler.md R163). -/
abbrev ahProductMax : Int := 4294967295

/-- The valid range of CONV.C2F (R171). -/
abbrev c2fLo : Int := -291000
abbrev c2fHi : Int := 291000
/-- The valid range of CONV.F2C (R173). -/
abbrev f2cLo : Int := -3571000
abbrev f2cHi : Int := 3635000

end Sys2Proof.Machine
end

