-- ==== Sys2Proof/Machine/Crc.lean ====
section
/-! DEFINITION. The CRC-8 primitives (41_checksum.md R100 to R102): polynomial 0x31, most significant bit first, no reflection,
no final XOR. -/

namespace Sys2Proof.Machine

/-- One of the 8 rounds of R100: shift left, and XOR the polynomial in when the top bit was set. -/
def crcRound (c : Byte) : Byte := if c.getLsbD 7 then (c <<< 1) ^^^ crcPoly else c <<< 1

/-- `n` rounds. -/
def crcRounds : Nat → Byte → Byte
  | 0, c => c
  | n + 1, c => crcRounds n (crcRound c)

/-- `crc8_byte(c, b)` (R100). -/
def crc8Byte (c b : Byte) : Byte := crcRounds 8 (c ^^^ b)

/-- `crc8(init, bytes)`: the bytes in the order given (R101). -/
def crc8 (init : Byte) (bytes : List Byte) : Byte := bytes.foldl crc8Byte init

end Sys2Proof.Machine
end

