-- ==== Sys2Proof/Config.lean ====
section
/-! DEFINITION. The open parameters of the SHT-CCU (00_scope.md R9: UNIT_BASE and AH_LUT) and the draws (R15).
All are opaque: no proof can see a value. The fixed parameters of R8 stand in Machine/Params.lean. -/

namespace Sys2Proof

/-- UNIT_BASE / 32. Open: the platform places the window (20_memory.md R60, R61; log 8). -/
opaque Config.unitBlock : Nat

/-- UNIT_BASE, the bus address of register offset 0x00: a multiple of 32 (R9), here by construction. -/
def Config.unitBase : Nat := 32 * Config.unitBlock

/-- Entry `i` of a lookup table made from any sequence `raw`: each entry cut at the bound of R41 (b), and never below the one
before it, as R41 (a) says. A sequence that meets R41 is left as it is (Laws/Config.lean), so the tables this makes are
exactly the tables R41 allows. -/
def AhLut.entryOfRaw (raw : Nat → Nat) : Nat → Nat
  | 0 => min (raw 0) 429496
  | i + 1 => max (AhLut.entryOfRaw raw i) (min (raw (i + 1)) 429496)

/-- The table made from any sequence, as ten u32 entries. -/
def AhLut.ofRaw (raw : Nat → Nat) : AhLut :=
  Vector.ofFn fun i => BitVec.ofNat 32 (AhLut.entryOfRaw raw i.val)

/-- The sequence behind AH_LUT. Open: the source gives no entry (91_not_in_source.md N1; log 7). -/
opaque Config.ahLutRaw : Nat → Nat

/-- AH_LUT: the ROM's contents as built into the unit, any table that meets R41 (a) and (b) (log 7). -/
def Config.ahLut : AhLut := AhLut.ofRaw Config.ahLutRaw

/-- `draw_16()` of R15: the value of the n-th draw, under no law (log 6). -/
opaque Config.draw16 : Nat → BitVec 16

/-- `draw_32()` of R15: the value of the n-th draw, under no law (log 6). -/
opaque Config.draw32 : Nat → BitVec 32

end Sys2Proof
end

