-- ==== Sys2Proof/Machine/State.lean ====
section
/-! DEFINITION. The state of the SHT-CCU (10_state.md), the host's side of the bus, and the state after reset (R43). -/

namespace Sys2Proof.Machine

/-- The six registers of the window (10_state.md R31). -/
inductive Reg where
  | cmd | status | opa | opb | res | crc
  deriving DecidableEq, Repr

/-- The address of a host access (log 8): `window off` is UNIT_BASE + off, as 30_encoding.md R89 and R91 write it; `bus a` is
any bus address `a` (00_scope.md R13). Ops.lean resolves both. -/
inductive BusAddr where
  | window (off : Offset)
  | bus (a : Nat)
  deriving DecidableEq, Repr

/-- The size of a host access (20_memory.md R62): a single access of some bytes, or a burst. -/
inductive BusSize where
  | single (bytes : Nat)
  | burst (bytes : Nat)
  deriving DecidableEq, Repr

/-- What can happen at the unit's port: the reset input (70_reset_and_hazards.md R230), a host read, a host write
(00_scope.md R13). `v` is the value of a 4-byte write; a write of any other size is refused whatever it carries (log 10). -/
inductive BusEvent where
  | reset
  | read (a : BusAddr) (n : BusSize)
  | write (a : BusAddr) (n : BusSize) (v : Word)
  deriving DecidableEq, Repr

/-- The fault of a host access (60_exceptions.md R203). It is recorded in `State.responses` and the unit goes on with the next
access (log 4); no step answers with it. -/
inductive Fault where
  /-- `raise BusError(a)`: raised by Machine/Bus.lean for a refused access (20_memory.md R62 to R65). Safe: the spec's own
  response, and no state of the unit changes. -/
  | busError (a : BusAddr)
  deriving DecidableEq, Repr

/-- Why a step can be refused. -/
inductive Refusal where
  /-- Raised by exec's arm for an instruction without a meaning; every instruction has one, so no step raises it. Safe. -/
  | notModelled (mnemonic : String)
  deriving DecidableEq, Repr

/-- What the unit answers to a host access (20_memory.md R65): the data of a read, the acceptance of a write, a bus error. -/
inductive Response where
  | data (v : Word)
  | accepted
  | fault (f : Fault)
  deriving DecidableEq, Repr

/-- The unit's registers and ROM, and the host's side of the bus. -/
structure State where
  /-- OPA, operand A (R32). -/
  opa : Word
  /-- OPB, operand B (R33). -/
  opb : Word
  /-- RES, the result of the last command that wrote it (R34). -/
  res : Word
  /-- CRC.acc, bits [7:0] of CRC (R35); bits [31:8] read 0 and are not stored. -/
  acc : Byte
  /-- STATUS.ERR, bits [3:0] of STATUS (R36); bits [31:4] read 0 and are not stored. -/
  err : BitVec 4
  /-- The absolute-humidity lookup ROM (R40); no event writes it. -/
  ahLut : AhLut
  /-- The model's own: how many draws have been taken (R15, log 6). -/
  draws : Nat
  /-- The host's events not yet served, oldest first (R30, log 1). -/
  pending : List BusEvent
  /-- The unit's answers so far, newest first (R203, log 2). -/
  responses : List Response
  deriving DecidableEq, Repr

/-- The state after reset (R43, 70_reset_and_hazards.md R230). The ROM is the parameter AH_LUT; the last three fields are the
model's choices (log 1, 2, 6). -/
def State.reset : State where
  opa := 0x00000000#32
  opb := 0x00000000#32
  res := 0x00000000#32
  acc := 0xFF#8
  err := 0#4
  ahLut := Config.ahLut
  draws := 0
  pending := []
  responses := []

end Sys2Proof.Machine
end

