-- ==== Sys2Proof/Machine/Flags.lean ====
section
/-! DEFINITION. STATUS.ERR, the unit's only condition indication (10_state.md R39), and `signal` (00_scope.md R13). -/

namespace Sys2Proof.Machine

/-- The error names of 60_exceptions.md R200. -/
inductive ErrCode where
  | ok | checksumMismatch | illegalOperation
  deriving DecidableEq, Repr

/-- The codes of R200. 3 to 15 are never produced. -/
def ErrCode.code : ErrCode → BitVec 4
  | .ok => 0#4
  | .checksumMismatch => 1#4
  | .illegalOperation => 2#4

/-- `signal E`: `STATUS.ERR <- code(E)`. It is not a trap and stops nothing (R13). -/
def State.signal (s : State) (e : ErrCode) : State := { s with err := e.code }

end Sys2Proof.Machine
end

