-- ==== Sys2Proof/Machine/Operands.lean ====
section
/-! DEFINITION. The seven operand layouts (30_encoding.md R82, R83). Bits a layout does not name are ignored. Wire bytes stand
big-endian in OPA (20_memory.md R70). Operands are read from OPA and OPB as they stand when the command executes (R67). -/

namespace Sys2Proof.Machine

/-- The layouts of R82. -/
inductive Layout where
  | none | b8 | w16 | w24c | t16 | s32 | s32x2
  deriving DecidableEq, Repr

/-- The layout of each command (the column layout of R84). -/
def layoutOf : Instr → Layout
  | .nop => .none
  | .srst => .none
  | .crcInit => .none
  | .crcByte => .b8
  | .crcWord => .w16
  | .crcChkacc => .b8
  | .crcGen16 => .w16
  | .crcChk16 => .w24c
  | .convT => .t16
  | .convRh => .t16
  | .convRh4 => .t16
  | .convT2tick => .s32
  | .convRh2tick => .s32
  | .convAh => .s32x2
  | .convC2f => .s32
  | .convF2c => .s32

/-- How many of OPA's low bits a layout names; the bits above are ignored (R82). -/
def Layout.opaBits : Layout → Nat
  | .none => 0
  | .b8 => 8
  | .w16 => 16
  | .w24c => 24
  | .t16 => 16
  | .s32 => 32
  | .s32x2 => 32

/-- How many of OPB's low bits a layout names (R82). -/
def Layout.opbBits : Layout → Nat
  | .none => 0
  | .b8 => 0
  | .w16 => 0
  | .w24c => 0
  | .t16 => 0
  | .s32 => 0
  | .s32x2 => 32

/-- B8: the byte OPA[7:0]. -/
abbrev State.b8 (s : State) : Byte := s.opa.extractLsb' 0 8

/-- W16: the first wire byte, OPA[15:8]. -/
abbrev State.w16Msb (s : State) : Byte := s.opa.extractLsb' 8 8

/-- W16: the second wire byte, OPA[7:0]. -/
abbrev State.w16Lsb (s : State) : Byte := s.opa.extractLsb' 0 8

/-- W24C: the first wire byte, OPA[23:16]. -/
abbrev State.w24cMsb (s : State) : Byte := s.opa.extractLsb' 16 8

/-- W24C: the second wire byte, OPA[15:8]. -/
abbrev State.w24cLsb (s : State) : Byte := s.opa.extractLsb' 8 8

/-- W24C: the checksum byte, OPA[7:0]. -/
abbrev State.w24cChk (s : State) : Byte := s.opa.extractLsb' 0 8

/-- W24C: the 16-bit word {msb, lsb}, OPA[23:8]. -/
abbrev State.w24cWord (s : State) : BitVec 16 := s.opa.extractLsb' 8 16

/-- T16: the tick `uval(OPA[15:0])`, zero-extended, never sign-extended (R83). -/
abbrev State.t16 (s : State) : Int := ((s.opa.extractLsb' 0 16).toNat : Int)

/-- S32, and the first operand of S32x2: `sval(OPA)`. -/
abbrev State.s32a (s : State) : Int := s.opa.toInt

/-- The second operand of S32x2: `sval(OPB)`. -/
abbrev State.s32b (s : State) : Int := s.opb.toInt

/-- How the host packs a payload half for W24C: `zext_32({p0, p1, p2})`, the first wire byte in OPA[23:16] (R83). -/
def packHalf (p0 p1 p2 : Byte) : Word := (p0 ++ p1 ++ p2).setWidth 32

end Sys2Proof.Machine
end

