-- ==== Sys2Proof/Machine/Ops.lean ====
section
/-! DEFINITION. The named operations over the state: register writes, draws, the reset (10_state.md R43), the host's answer and
the bus error (60_exceptions.md R203), the register window's addresses, and the arithmetic primitives of 00_scope.md R11 and
R12. The unit takes no exception and returns from none (R207, R208). -/

namespace Sys2Proof.Machine

/-- `OPA <- v`. -/
def State.setOpa (s : State) (v : Word) : State := { s with opa := v }

/-- `OPB <- v`. -/
def State.setOpb (s : State) (v : Word) : State := { s with opb := v }

/-- `RES <- v`. -/
def State.setRes (s : State) (v : Word) : State := { s with res := v }

/-- `CRC.acc <- c`. -/
def State.setAcc (s : State) (c : Byte) : State := { s with acc := c }

/-- `RES <- zext_32(draw_16())` (R15): the value is free, and the next draw is another (log 6). -/
def State.drawRes16 (s : State) : State :=
  { s with res := (Config.draw16 s.draws).setWidth 32, draws := s.draws + 1 }

/-- `RES <- draw_32()` (R15). -/
def State.drawRes32 (s : State) : State :=
  { s with res := Config.draw32 s.draws, draws := s.draws + 1 }

/-- The reset of R43: the reset input (70_reset_and_hazards.md R230) and SRST (44_system.md R191) have this one effect (R231).
The ROM keeps its contents; the host's side and the count of draws are no state of the unit. -/
def State.resetUnit (s : State) : State :=
  { s with opa := 0x00000000#32, opb := 0x00000000#32, res := 0x00000000#32, acc := 0xFF#8, err := 0#4 }

/-- The unit's answer to the access it serves (20_memory.md R65). -/
def State.answer (s : State) (r : Response) : State := { s with responses := r :: s.responses }

/-- `raise BusError(a)` (00_scope.md R13, 60_exceptions.md R203): no state of the unit changes, a read returns no data. -/
def State.busError (s : State) (a : BusAddr) : State := s.answer (.fault (.busError a))

/-- The register's offset in the window (10_state.md R31). -/
def Reg.offset : Reg → Offset
  | .cmd => 0x00#5
  | .status => 0x04#5
  | .opa => 0x08#5
  | .opb => 0x0C#5
  | .res => 0x10#5
  | .crc => 0x14#5

/-- The register at an offset: none at the unmapped 0x18 and 0x1C (R31), and none at an offset between two registers. -/
def Reg.ofOffset (off : Offset) : Option Reg :=
  match off with
  | 0x00#5 => some .cmd
  | 0x04#5 => some .status
  | 0x08#5 => some .opa
  | 0x0C#5 => some .opb
  | 0x10#5 => some .res
  | 0x14#5 => some .crc
  | _ => none

/-- The bus address an access names. -/
def BusAddr.toNat : BusAddr → Nat
  | .window off => Config.unitBase + off.toNat
  | .bus a => a

/-- Address `a` falls in the window iff UNIT_BASE <= a < UNIT_BASE + 32, and then its offset is a - UNIT_BASE (20_memory.md
R60). None: the access is not an access to the unit. An address written as UNIT_BASE + off is in the window. -/
def BusAddr.windowOffset : BusAddr → Option Offset
  | .window off => some off
  | .bus a =>
    if Config.unitBase ≤ a ∧ a < Config.unitBase + 32 then some (BitVec.ofNat 5 (a - Config.unitBase)) else none

/-- The unit accepts only single 4-byte accesses (20_memory.md R62). -/
def BusSize.isWord : BusSize → Bool
  | .single n => n == 4
  | .burst _ => false

/-- `off mod 4 = 0` (20_memory.md R63). -/
def aligned (off : Offset) : Bool := off.toNat % 4 == 0

/-- `floor_div(a, b)`: rounds toward minus infinity (R12). -/
def floorDiv (a b : Int) : Int := a.fdiv b

/-- `tdiv(a, b)`: rounds toward zero (R12). -/
def tdiv (a b : Int) : Int := a.tdiv b

/-- `a >> n = floor(a / 2^n)` (R12). -/
def shr (a : Int) (n : Nat) : Int := floorDiv a (2 ^ n)

/-- `bits32(z)`: the 32-bit two's-complement pattern of z (R11). -/
def bits32 (z : Int) : Word := BitVec.ofInt 32 z

/-- Bits [15:0] of an integer, zero-extended to a word: `zext_32(z[15:0])`. -/
def low16 (z : Int) : Word := (BitVec.ofInt 16 z).setWidth 32

end Sys2Proof.Machine
end

