-- ==== Sys2Proof/Machine/Checksum.lean ====
section
/-! DEFINITION. The checksum commands (41_checksum.md R103 to R108). -/

namespace Sys2Proof.Machine

/-- CRC.INIT (R103). -/
def execCrcInit (s : State) : Host.Outcome State Fault Refusal :=
  .next ((s.setAcc crcInit).signal .ok)

/-- CRC.BYTE (R104). -/
def execCrcByte (s : State) : Host.Outcome State Fault Refusal :=
  .next ((s.setAcc (crc8Byte s.acc s.b8)).signal .ok)

/-- CRC.WORD (R105): MSB first. -/
def execCrcWord (s : State) : Host.Outcome State Fault Refusal :=
  .next ((s.setAcc (crc8Byte (crc8Byte s.acc s.w16Msb) s.w16Lsb)).signal .ok)

/-- CRC.CHKACC (R106): CRC.acc and RES are unchanged in both outcomes. -/
def execCrcChkacc (s : State) : Host.Outcome State Fault Refusal :=
  if s.acc = s.b8 then .next (s.signal .ok) else .next (s.signal .checksumMismatch)

/-- CRC.GEN16 (R107): starts from CRC_INIT whatever CRC.acc holds. -/
def execCrcGen16 (s : State) : Host.Outcome State Fault Refusal :=
  .next ((s.setRes ((crc8 crcInit [s.w16Msb, s.w16Lsb]).setWidth 32)).signal .ok)

/-- CRC.CHK16 (R108): the word goes to RES on a match only. -/
def execCrcChk16 (s : State) : Host.Outcome State Fault Refusal :=
  if crc8 crcInit [s.w24cMsb, s.w24cLsb] = s.w24cChk then .next ((s.setRes (s.w24cWord.setWidth 32)).signal .ok)
  else .next (s.signal .checksumMismatch)

end Sys2Proof.Machine
end

