-- ==== Sys2Proof/Machine/Humidity.lean ====
section
/-! DEFINITION. The absolute-humidity interpolator CONV.AH (43_humidity_lut_and_scaler.md R160 to R163). -/

namespace Sys2Proof.Machine

/-- `u = t - T_LO`, clamped to 0 below T_LO (R161). -/
def ahOffset (t : Int) : Nat := if t < tLo then 0 else (t - tLo).toNat

/-- `r` of R161 and R162: `lut(i) + floor((lut(i+1) - lut(i)) × rem / 10000)` for `i = floor_div(u, 10000)` and
`rem = u mod 10000`, multiply first; `lut(9)` at or above T_HI. -/
def ahInterpolate (lut : AhLut) (u : Nat) : Int :=
  let i := u / tStep
  let rem := u % tStep
  if h : i < 9 then
    (lut[i].toNat : Int) + floorDiv (((lut[i + 1].toNat : Int) - lut[i].toNat) * rem) tStep
  else lut[9].toNat

/-- The product `p = (r >> 3) × h` (R163). -/
def ahProduct (lut : AhLut) (t h : Int) : Int := shr (ahInterpolate lut (ahOffset t)) ahPreShift * h

/-- CONV.AH (R161): 0 for h <= 0, a draw when the product leaves 32 bits, OK in every case. -/
def execConvAh (s : State) : Host.Outcome State Fault Refusal :=
  let t := s.s32a
  let h := s.s32b
  if h ≤ 0 then .next ((s.setRes 0x00000000#32).signal .ok)
  else
    let p := ahProduct s.ahLut t h
    if p ≤ ahProductMax then .next ((s.setRes (bits32 (floorDiv p ahDivisor))).signal .ok)
    else .next (s.drawRes32.signal .ok)

end Sys2Proof.Machine
end

