-- ==== Sys2Proof/Machine/Scaler.lean ====
section
/-! DEFINITION. The Celsius/Fahrenheit scaler (43_humidity_lut_and_scaler.md R170 to R173; log 12). Rounding is toward zero;
outside the valid range the result is a draw and ERR is OK. -/

namespace Sys2Proof.Machine

/-- CONV.C2F (R170). -/
def execConvC2f (s : State) : Host.Outcome State Fault Refusal :=
  let c := s.s32a
  if c2fLo ≤ c ∧ c ≤ c2fHi then .next ((s.setRes (bits32 (tdiv (9 * c) 5 + 32000))).signal .ok)
  else .next (s.drawRes32.signal .ok)

/-- CONV.F2C (R172). -/
def execConvF2c (s : State) : Host.Outcome State Fault Refusal :=
  let f := s.s32a
  if f2cLo ≤ f ∧ f ≤ f2cHi then .next ((s.setRes (bits32 (tdiv (5 * (f - 32000)) 9))).signal .ok)
  else .next (s.drawRes32.signal .ok)

end Sys2Proof.Machine
end

