-- ==== Sys2Proof/Machine/System.lean ====
section
/-! DEFINITION. The system commands (44_system.md). -/

namespace Sys2Proof.Machine

/-- NOP (R190). -/
def execNop (s : State) : Host.Outcome State Fault Refusal :=
  .next (s.signal .ok)

/-- SRST (R191): the full reset state of 10_state.md R43, then `signal OK`. -/
def execSrst (s : State) : Host.Outcome State Fault Refusal :=
  .next (s.resetUnit.signal .ok)

end Sys2Proof.Machine
end

