-- ==== Sys2Proof/Machine/Tick.lean ====
section
/-! DEFINITION. The tick conversions (42_tick_conversion.md). Arithmetic is on unbounded integers (00_scope.md R12); no result is
clamped (R137). -/

namespace Sys2Proof.Machine

/-- CONV.T (R131). -/
def execConvT (s : State) : Host.Outcome State Fault Refusal :=
  .next ((s.setRes (bits32 (shr (tSlope * s.t16) tickShift - tOffset))).signal .ok)

/-- CONV.RH (R133). -/
def execConvRh (s : State) : Host.Outcome State Fault Refusal :=
  .next ((s.setRes (bits32 (shr (rhSlope * s.t16) tickShift))).signal .ok)

/-- CONV.RH4 (R135). -/
def execConvRh4 (s : State) : Host.Outcome State Fault Refusal :=
  .next ((s.setRes (bits32 (shr (rh4Slope * s.t16) tickShift - rh4Offset))).signal .ok)

/-- CONV.T2TICK (R140): exact on the domain of R141, a draw outside, OK either way (60_exceptions.md R205). -/
def execConvT2tick (s : State) : Host.Outcome State Fault Refusal :=
  let t := s.s32a
  if t2tickLo ≤ t ∧ t ≤ t2tickHi then
    .next ((s.setRes (low16 (shr (t * invTMultiplier + invTAddend) invShift))).signal .ok)
  else .next (s.drawRes16.signal .ok)

/-- CONV.RH2TICK (R142): exact on the domain of R143, a draw outside. -/
def execConvRh2tick (s : State) : Host.Outcome State Fault Refusal :=
  let h := s.s32a
  if rh2tickLo ≤ h ∧ h ≤ rh2tickHi then
    .next ((s.setRes (low16 (shr (h * invRhMultiplier) invShift))).signal .ok)
  else .next (s.drawRes16.signal .ok)

end Sys2Proof.Machine
end

