-- ==== Sys2Proof/Machine/Dispatch.lean ====
section
/-! DEFINITION. exec: one arm per command, each one call of its meaning (30_encoding.md R85). -/

namespace Sys2Proof.Machine

def exec (i : Instr) (s : State) : Host.Outcome State Fault Refusal :=
  match i with
  | .nop => Sys2Proof.Machine.execNop s
  | .srst => Sys2Proof.Machine.execSrst s
  | .crcInit => Sys2Proof.Machine.execCrcInit s
  | .crcByte => Sys2Proof.Machine.execCrcByte s
  | .crcWord => Sys2Proof.Machine.execCrcWord s
  | .crcChkacc => Sys2Proof.Machine.execCrcChkacc s
  | .crcGen16 => Sys2Proof.Machine.execCrcGen16 s
  | .crcChk16 => Sys2Proof.Machine.execCrcChk16 s
  | .convT => Sys2Proof.Machine.execConvT s
  | .convRh => Sys2Proof.Machine.execConvRh s
  | .convRh4 => Sys2Proof.Machine.execConvRh4 s
  | .convT2tick => Sys2Proof.Machine.execConvT2tick s
  | .convRh2tick => Sys2Proof.Machine.execConvRh2tick s
  | .convAh => Sys2Proof.Machine.execConvAh s
  | .convC2f => Sys2Proof.Machine.execConvC2f s
  | .convF2c => Sys2Proof.Machine.execConvF2c s

end Sys2Proof.Machine
end

