-- ==== Sys2Proof/Machine/Bus.lean ====
section
/-! DEFINITION. The host access function (20_memory.md R60 to R68) and the execution of a command word (30_encoding.md R85, R86).
Checks come in the order of 60_exceptions.md R206: the bus, then RSV and the opcode, then the checksum. -/

namespace Sys2Proof.Machine

/-- `execute_command(s, w)` (R85): an illegal word signals ILLEGAL_OPERATION and does nothing else (R86). -/
def executeCommand (w : Word) (s : State) : Host.Outcome State Fault Refusal :=
  match decode w with
  | .ok i => exec i s
  | .error _ => .next (s.signal .illegalOperation)

/-- What a host read of a register returns: none where reading is not permitted (20_memory.md R64). -/
def State.readReg (s : State) : Reg → Option Word
  | .cmd => none
  | .status => some (s.err.setWidth 32)
  | .opa => some s.opa
  | .opb => some s.opb
  | .res => some s.res
  | .crc => some (s.acc.setWidth 32)

/-- A host read at offset `off` of the window (R65): it changes no state of the unit (R66). -/
def accessRead (a : BusAddr) (n : BusSize) (off : Offset) (s : State) : State :=
  if n.isWord && aligned off then
    match (Reg.ofOffset off).bind s.readReg with
    | some v => s.answer (.data v)
    | none => s.busError a
  else s.busError a

/-- A host write of `v` at offset `off` of the window (R65). A write to CMD runs its command within the same step (R68); the
write is accepted even where the word is illegal (R86). -/
def accessWrite (a : BusAddr) (n : BusSize) (v : Word) (off : Offset) (s : State) :
    Host.Outcome State Fault Refusal :=
  if n.isWord && aligned off then
    match Reg.ofOffset off with
    | some .cmd => executeCommand v (s.answer .accepted)
    | some .opa => .next ((s.answer .accepted).setOpa v)
    | some .opb => .next ((s.answer .accepted).setOpb v)
    | some .status => .next (s.busError a)
    | some .res => .next (s.busError a)
    | some .crc => .next (s.busError a)
    | none => .next (s.busError a)
  else .next (s.busError a)

/-- Serve one event. An access outside the window is not seen by the unit: no effect and no answer (R60, log 9). -/
def serve (e : BusEvent) (s : State) : Host.Outcome State Fault Refusal :=
  match e with
  | .reset => .next s.resetUnit
  | .read a n =>
    match a.windowOffset with
    | some off => .next (accessRead a n off s)
    | none => .next s
  | .write a n v =>
    match a.windowOffset with
    | some off => accessWrite a n v off s
    | none => .next s

/-- The oldest pending event is served, the rest wait; with none pending the unit waits and nothing changes (00_scope.md R19,
60_exceptions.md R207, log 3). -/
def servePending (s : State) : Host.Outcome State Fault Refusal :=
  match s.pending with
  | [] => .next s
  | e :: rest => serve e { s with pending := rest }

/-- The host write of a command word to CMD: `WR CMD, w` (30_encoding.md R89). -/
def cmdWrite (w : Word) : BusEvent := .write (.window Reg.cmd.offset) (.single 4) w

end Sys2Proof.Machine
end

