-- ==== Sys2Proof/Machine/Step.lean ====
section
/-! DEFINITION. One step: one event at the unit's port, served whole (20_memory.md R68, R71). -/

namespace Sys2Proof.Machine

/-- One step of the unit. -/
def step (s : State) : Host.Outcome State Fault Refusal := servePending s

/-- `s` with the command word `w` written to CMD by the host's next access, so that the next step executes it. The unit fetches
nothing (10_state.md R30): this stands for the host's write (log 5). Bits of `w` above the row's `nbits` are 0, and a command
word is 32 bits. -/
def State.withFetchWord (s : State) (nbits w : Nat) : State :=
  { s with pending := cmdWrite (BitVec.ofNat 32 (w % 2 ^ nbits)) :: s.pending }

end Sys2Proof.Machine
end

