-- ==== Sys2Proof/Machine/Asm.lean ====
section
/-! DEFINITION. CCU-asm, the assembly of host programs (30_encoding.md R89 to R91), as abstract syntax: the statements, the
pseudo-instructions, the bus transactions a statement makes, and a host that runs a program against the unit, one statement at
a time (log 16). The unit sees a program only as its sequence of bus accesses (R89). -/

namespace Sys2Proof.Machine.Asm

/-- `<val>`: an immediate or a host variable `%x`; variables are numbered. -/
inductive Val where
  | imm (v : Word)
  | var (x : Nat)
  deriving DecidableEq, Repr

/-- `<expr>`: a host-side computation. The spec gives no grammar for it; its programs use sums and differences. -/
inductive Expr where
  | val (v : Val)
  | add (a b : Expr)
  | sub (a b : Expr)
  deriving DecidableEq, Repr

/-- The statements of R89; labels are numbered. -/
inductive Stmt where
  | wr (r : Reg) (v : Val)
  | rd (x : Nat) (r : Reg)
  | command (i : Instr)
  | assign (x : Nat) (e : Expr)
  | beq (x : Nat) (k : Word) (l : Nat)
  | bne (x : Nat) (k : Word) (l : Nat)
  | jmp (l : Nat)
  | label (l : Nat)
  | halt
  deriving DecidableEq, Repr

/-- A decimal immediate, taken as the s32 pattern `bits32` (R89). -/
def dec (z : Int) : Val := .imm (bits32 z)

/-- `CRC16 <v>` (R90). -/
def crc16 (v : Val) : List Stmt := [.wr .opa v, .command .crcGen16]

/-- `CHECK <v>` (R90). -/
def check (v : Val) : List Stmt := [.wr .opa v, .command .crcChk16]

/-- `CONV <MNEMONIC>, <v>` (R90). -/
def conv (i : Instr) (v : Val) : List Stmt := [.wr .opa v, .command i]

/-- `AH <t>, <h>` (R90). -/
def ah (t h : Val) : List Stmt := [.wr .opa t, .wr .opb h, .command .convAh]

/-- `OK? <label>` (R90): read STATUS into `%err` and branch on an error. -/
def okOr (err l : Nat) : List Stmt := [.rd err .status, .bne err 0#32 l]

/-- The host's variables: the newest binding first. -/
abbrev Vars := List (Nat × Word)

/-- The value of a host variable; one not assigned yet reads 0 (log 16). -/
def Vars.get (vs : Vars) (x : Nat) : Word :=
  match vs with
  | [] => 0#32
  | (y, v) :: rest => if x = y then v else Vars.get rest x

def Val.eval (vs : Vars) : Val → Word
  | .imm v => v
  | .var x => vs.get x

/-- Host arithmetic wraps at 32 bits (log 16). -/
def Expr.eval (vs : Vars) : Expr → Word
  | .val v => v.eval vs
  | .add a b => a.eval vs + b.eval vs
  | .sub a b => a.eval vs - b.eval vs

/-- The bus transaction a statement makes (R89, R91); none for a host-side statement. -/
def Stmt.transaction (vs : Vars) : Stmt → Option BusEvent
  | .wr r v => some (.write (.window r.offset) (.single 4) (v.eval vs))
  | .rd _ r => some (.read (.window r.offset) (.single 4))
  | .command i => some (cmdWrite (encode i))
  | .assign _ _ | .beq _ _ _ | .bne _ _ _ | .jmp _ | .label _ | .halt => none

/-- The host: its position in the program (R30) and its variables. -/
structure HostState where
  pos : Nat
  vars : Vars
  deriving DecidableEq, Repr

/-- The position of a label. DESIGN CHOICE (log 16): a label the program lacks is past its end, and of a label it defines more than
once the first counts. -/
def target (p : List Stmt) (l : Nat) : Nat := p.findIdx (· == .label l)

/-- The read variable takes the data answered; a bus error gives no data and the host goes on (log 16). -/
def takeData (x : Nat) (vs : Vars) (t : State) : Vars :=
  match t.responses with
  | .data v :: _ => (x, v) :: vs
  | _ => vs

/-- One statement of the host against the unit: a bus statement is one step of the unit on its transaction. Past the end, and at
HALT, the host stays where it is. -/
def hostStep (p : List Stmt) (h : HostState) (s : State) :
    Host.Outcome (HostState × State) Fault Refusal :=
  match p[h.pos]? with
  | none => .next (h, s)
  | some st =>
    match st.transaction h.vars with
    | some e =>
      match step { s with pending := e :: s.pending } with
      | .next t =>
        match st with
        | .rd x _ => .next ({ pos := h.pos + 1, vars := takeData x h.vars t }, t)
        | .wr _ _ | .command _ | .assign _ _ | .beq _ _ _ | .bne _ _ _ | .jmp _ | .label _ | .halt =>
          .next ({ h with pos := h.pos + 1 }, t)
      | .fault f => .fault f
      | .refused r => .refused r
    | none =>
      match st with
      | .assign x e => .next ({ pos := h.pos + 1, vars := (x, e.eval h.vars) :: h.vars }, s)
      | .beq x k l => .next ({ h with pos := if h.vars.get x = k then target p l else h.pos + 1 }, s)
      | .bne x k l => .next ({ h with pos := if h.vars.get x = k then h.pos + 1 else target p l }, s)
      | .jmp l => .next ({ h with pos := target p l }, s)
      | .halt => .next (h, s)
      | .label _ | .wr _ _ | .rd _ _ | .command _ => .next ({ h with pos := h.pos + 1 }, s)

/-- `n` statements of the host. -/
def hostRun (p : List Stmt) : Nat → HostState → State → Host.Outcome (HostState × State) Fault Refusal
  | 0, h, s => .next (h, s)
  | n + 1, h, s =>
    match hostStep p h s with
    | .next (h', s') => hostRun p n h' s'
    | .fault f => .fault f
    | .refused r => .refused r

end Sys2Proof.Machine.Asm
end

