-- ==== Sys2Proof/Safety.lean ====
section
/-! DEFINITION. The terms claims use: the invariant of the unit, permitted accesses (20_memory.md R64), interleavings of several
host agents (60_exceptions.md R213). -/

namespace Sys2Proof.Machine

/-- `n` steps, stopping where a step does not answer a next state. -/
def runSteps : Nat → State → Host.Outcome State Fault Refusal
  | 0, s => .next s
  | n + 1, s =>
    match step s with
    | .next t => runSteps n t
    | .fault f => .fault f
    | .refused r => .refused r

/-- The unit's invariant: STATUS.ERR is a produced code (10_state.md R36; 60_exceptions.md R200), and the ROM meets R41. -/
def State.Inv (s : State) : Prop := s.err.toNat ≤ 2 ∧ s.ahLut.Ok

/-- The accesses R64 accepts, and the reset input: an event that ends in no bus error. -/
def BusEvent.permitted : BusEvent → Bool
  | .reset => true
  | .read a n =>
    match a.windowOffset with
    | some off => n == .single 4 && off ∈ [0x04#5, 0x08#5, 0x0C#5, 0x10#5, 0x14#5]
    | none => true
  | .write a n _ =>
    match a.windowOffset with
    | some off => n == .single 4 && off ∈ [0x00#5, 0x08#5, 0x0C#5]
    | none => true

/-- `Interleaves xs ys zs`: `zs` is an interleaving of the access sequences of two agents (R213). -/
inductive Interleaves : List BusEvent → List BusEvent → List BusEvent → Prop
  | nil : Interleaves [] [] []
  | left (e : BusEvent) {xs ys zs : List BusEvent} (h : Interleaves xs ys zs) : Interleaves (e :: xs) ys (e :: zs)
  | right (e : BusEvent) {xs ys zs : List BusEvent} (h : Interleaves xs ys zs) : Interleaves xs (e :: ys) (e :: zs)

end Sys2Proof.Machine
end

