-- ==== Sys2Proof/Certificates/Slice0/Obligations.lean ====
section
/-! DEFINITION. The statements about the SHT-CCU for the provers. Each docstring names the rule or the sentence it formalises.
Results are written out in plain arithmetic on the registers' numbers, not in the model's own helpers, where that is possible:
OPA[15:8] is `BitVec.ofNat 8 (s.opa.toNat / 256)`. A drawn result is "there are d and n with …": nothing is said of its value,
nor of the model's own field `draws` (log 6). -/

open Sys2Proof Sys2Proof.Machine

/-! ### Decoding -/

/-- R84, R85: a command word decodes to a command exactly when it is that command's word: no other word runs it. -/
def Obligations.DecodeIsExactlyTheOpcodeMap : Prop :=
  ∀ (w : Word) (i : Instr), decode w = .ok i ↔ w = encode i

/-- R80, R86, R87: the words the decoder accepts are the ones R87's ranges of unassigned opcodes leave. -/
def Obligations.LegalWordsAreTheOnesThatDecode : Prop :=
  ∀ w : Word, legalWord w = true ↔ ∃ i, decode w = .ok i

/-- Sanity: one word of each family, written out from R84, and two illegal words (95_test_vectors.md Y3, Y6). -/
def Obligations.SampleWordsDecode : Prop :=
  decode 0x00000000#32 = .ok .nop ∧ decode 0x00000015#32 = .ok .crcChk16 ∧ decode 0x00000024#32 = .ok .convRh2tick ∧
  decode 0x00000030#32 = .ok .convAh ∧ decode 0x00000041#32 = .ok .convF2c ∧
  decode 0x00000002#32 = .error .unassignedOpcode ∧ decode 0x00000120#32 = .error .reservedBits

/-- R202, R86: executing an illegal word sets ERR to 2 and changes nothing else. The opcode ranges are those of R87. That the CMD
write is accepted and executes its word is in HostAccessFollowsTheAccessFunction. -/
def Obligations.IllegalWordOnlySignals : Prop :=
  ∀ (s : State) (w : Word),
    (256 ≤ w.toNat ∨ (0x02 ≤ w.toNat ∧ w.toNat ≤ 0x0F) ∨ (0x16 ≤ w.toNat ∧ w.toNat ≤ 0x1F) ∨
      (0x25 ≤ w.toNat ∧ w.toNat ≤ 0x2F) ∨ (0x31 ≤ w.toNat ∧ w.toNat ≤ 0x3F) ∨ (0x42 ≤ w.toNat ∧ w.toNat ≤ 0xFF)) →
    executeCommand w s = .next { s with err := 2#4 }

/-! ### Steps and host accesses -/

/-- R37, R68, R85: a write to CMD runs the decoded command, whole, in the step of the write. Around it the step takes the event
off the pending list and records that the write was accepted (the model's host side, log 1 and 2). -/
def Obligations.StepRunsTheDecodedCommand : Prop :=
  ∀ (s : State) (a : BusAddr) (w : Word) (i : Instr) (rest : List BusEvent),
    a.toNat = Config.unitBase → s.pending = .write a (.single 4) w :: rest → decode w = .ok i →
    step s = exec i { s with pending := rest, responses := .accepted :: s.responses }

/-- R62 to R65, R203: the access function on every access in the window, whichever way its address is written. The list of
pending accesses and the list of answers are the model's host side (log 1, 2, 4); an access belongs to the window by its first
byte (log 17). -/
def Obligations.HostAccessFollowsTheAccessFunction : Prop :=
  ∀ (s : State) (a : BusAddr) (n : BusSize) (off : Nat) (rest : List BusEvent),
    off < 32 → a.toNat = Config.unitBase + off →
    (s.pending = .read a n :: rest → ∃ r,
      step s = .next { s with pending := rest, responses := r :: s.responses } ∧
      (n = .single 4 → off = 0x04 → r = .data (BitVec.ofNat 32 s.err.toNat)) ∧
      (n = .single 4 → off = 0x08 → r = .data s.opa) ∧
      (n = .single 4 → off = 0x0C → r = .data s.opb) ∧
      (n = .single 4 → off = 0x10 → r = .data s.res) ∧
      (n = .single 4 → off = 0x14 → r = .data (BitVec.ofNat 32 s.acc.toNat)) ∧
      ((n ≠ .single 4 ∨ off % 4 ≠ 0 ∨ off = 0x00 ∨ off = 0x18 ∨ off = 0x1C) → r = .fault (.busError a))) ∧
    (∀ v : Word, s.pending = .write a n v :: rest →
      (n = .single 4 → off = 0x00 →
        step s = executeCommand v { s with pending := rest, responses := .accepted :: s.responses }) ∧
      (n = .single 4 → off = 0x08 →
        step s = .next { s with pending := rest, responses := .accepted :: s.responses, opa := v }) ∧
      (n = .single 4 → off = 0x0C →
        step s = .next { s with pending := rest, responses := .accepted :: s.responses, opb := v }) ∧
      ((n ≠ .single 4 ∨ off % 4 ≠ 0 ∨ off = 0x04 ∨ off = 0x10 ∨ off = 0x14 ∨ off = 0x18 ∨ off = 0x1C) →
        step s = .next { s with pending := rest, responses := .fault (.busError a) :: s.responses }))

/-- R60: "An access outside the window is not an access to the unit, and the unit does not see it." That the step only drops it
from the pending list is the model's choice (log 9). -/
def Obligations.AccessOutsideTheWindowIsNotSeen : Prop :=
  ∀ (s : State) (a : BusAddr) (n : BusSize) (v : Word) (rest : List BusEvent),
    (a.toNat < Config.unitBase ∨ Config.unitBase + 32 ≤ a.toNat) →
    (s.pending = .read a n :: rest ∨ s.pending = .write a n v :: rest) →
    step s = .next { s with pending := rest }

/-- R19, R207: with no access pending the unit waits. That such a step answers with the same state is the model's choice
(log 3). -/
def Obligations.StepWithNothingPendingChangesNothing : Prop :=
  ∀ s : State, s.pending = [] → step s = .next s

/-- 93_implementation_defined.md: "No behaviour of the SHT-CCU is `stuck`. Every access and every command completes in one
step". From every state, a step answers a next state, never a fault or a refusal, and takes one event (log 1, log 4). -/
def Obligations.EveryStepCompletesAndServesOneEvent : Prop :=
  ∀ s : State, ∃ t, step s = .next t ∧ t.pending = s.pending.tail

/-- R71: "Every access sees the effects of every access accepted before it and of none after it." A finite list of events is
served to its end, and what waits behind it makes no difference to that (log 1). Where a command draws, that the two runs leave one
RES is the model's choice and not R15's: they take the same draws at the same count (log 6). -/
def Obligations.LaterAccessesDoNotReachBack : Prop :=
  ∀ (s : State) (xs ys : List BusEvent), ∃ t,
    runSteps xs.length { s with pending := xs } = .next t ∧ t.pending = [] ∧
    runSteps xs.length { s with pending := xs ++ ys } = .next { t with pending := ys }

/-- R66, R213: reads have no side effects, so a second agent that only reads the unit, its reads falling anywhere among the first
agent's accesses, leaves the unit's registers as the first agent alone would have (log 1, 13). Where
the first agent's command draws, that both runs leave one RES is the model's choice and not R15's (log 6). -/
def Obligations.ReadingAgentDisturbsNothing : Prop :=
  ∀ (s : State) (xs ys zs : List BusEvent), Interleaves xs ys zs → (∀ e ∈ ys, ∃ a n, e = .read a n) →
    ∃ t u, runSteps xs.length { s with pending := xs } = .next t ∧
      runSteps zs.length { s with pending := zs } = .next u ∧
      u.opa = t.opa ∧ u.opb = t.opb ∧ u.res = t.res ∧ u.acc = t.acc ∧ u.err = t.err ∧ u.ahLut = t.ahLut

/-- R64, R73: a host that makes only accesses R64 accepts never gets a bus error, however many accesses it makes (log 1, 4). An
access outside the window counts as permitted here: that it gets no answer is the model's choice (log 9). -/
def Obligations.PermittedAccessesGetNoBusError : Prop :=
  ∀ s : State, (∀ e ∈ s.pending, e.permitted = true) →
    ∃ t, runSteps s.pending.length s = .next t ∧ t.pending = [] ∧
      ∀ f, Response.fault f ∈ t.responses → Response.fault f ∈ s.responses

/-! ### Reset, parameters and invariants -/

/-- R43: the values the spec states for reset. The ROM is the parameter AH_LUT. -/
def Obligations.ResetStateHoldsTheStatedValues : Prop :=
  State.reset.opa = 0x00000000#32 ∧ State.reset.opb = 0x00000000#32 ∧ State.reset.res = 0x00000000#32 ∧
  State.reset.acc = 0xFF#8 ∧ State.reset.err = 0#4 ∧ State.reset.ahLut = Config.ahLut

/-- R230, R231: the reset input puts every register at its reset value, leaves the ROM alone, and has exactly SRST's effect.
That it comes as an event among the accesses is the model's choice (log 15). -/
def Obligations.ResetInputHasTheEffectOfSrst : Prop :=
  ∀ (s : State) (rest : List BusEvent), s.pending = .reset :: rest →
    step s = .next { s with pending := rest, opa := 0#32, opb := 0#32, res := 0#32, acc := 0xFF#8, err := 0#4 } ∧
    step s = exec .srst { s with pending := rest }

/-- R41: the tables the model's parameter ranges over are exactly the ones that meet (a) and (b). -/
def Obligations.TablesMadeAreExactlyTheAllowedOnes : Prop :=
  ∀ t : AhLut, t.Ok ↔ ∃ raw : Nat → Nat, AhLut.ofRaw raw = t

/-- R36, R200, R41: the invariant "ERR is 0, 1 or 2, and the ROM meets R41" holds after reset. -/
def Obligations.InvariantHoldsAtReset : Prop :=
  State.reset.Inv

/-- R36: "Values 3 to 15 of ERR are never produced." Every step keeps the invariant, from every state that meets it. -/
def Obligations.EveryStepKeepsTheInvariant : Prop :=
  ∀ s t : State, s.Inv → step s = .next t → t.Inv

/-- R40, R43: the host cannot write the ROM, no command writes it, and no reset does. -/
def Obligations.RomNeverChanges : Prop :=
  ∀ s t : State, step s = .next t → t.ahLut = s.ahLut

/-! ### Rules over all commands -/

/-- R16, R32 to R35: the frame of every command. OPA and OPB change by SRST alone, CRC.acc by the streaming commands and SRST, RES
by a value-producing command that does not fail; the ROM and the host's side never; the model's count of draws by a command
with a draw alone. -/
def Obligations.CommandsWriteOnlyTheirRegisters : Prop :=
  ∀ (i : Instr) (s t : State), exec i s = .next t →
    t.ahLut = s.ahLut ∧ t.pending = s.pending ∧ t.responses = s.responses ∧
    (i ≠ .srst → t.opa = s.opa ∧ t.opb = s.opb) ∧
    (i ∉ [.srst, .crcInit, .crcByte, .crcWord] → t.acc = s.acc) ∧
    (i ∈ [.nop, .crcInit, .crcByte, .crcWord, .crcChkacc] ∨ t.err ≠ 0#4 → t.res = s.res) ∧
    (i ∉ [.convT2tick, .convRh2tick, .convAh, .convC2f, .convF2c] → t.draws = s.draws)

/-- R39: ERR "is written by every command", an illegal word included, and "No command reads it": the ERR a command finds makes no
difference to anything it leaves. Outside a domain the drawn RES is among what is equal: that two executions at one count take one
draw is the model's choice and not R15's (log 6). -/
def Obligations.ErrIsOverwrittenAndNeverRead : Prop :=
  ∀ (w : Word) (s : State) (e : BitVec 4), executeCommand w { s with err := e } = executeCommand w s

/-- R38: "The unit has no hidden state": a command's outcome depends on OPA, OPB, CRC and the ROM (and on which draw comes next,
the model's choice, log 6), and on nothing earlier. RES is either written from those or left. -/
def Obligations.CommandsReadOnlyTheNamedState : Prop :=
  ∀ (i : Instr) (s s' : State), s'.opa = s.opa → s'.opb = s.opb → s'.acc = s.acc → s'.ahLut = s.ahLut →
    s'.draws = s.draws →
    ∃ t t', exec i s = .next t ∧ exec i s' = .next t' ∧ t'.opa = t.opa ∧ t'.opb = t.opb ∧ t'.acc = t.acc ∧
      t'.err = t.err ∧ (t'.res = t.res ∨ (t.res = s.res ∧ t'.res = s'.res))

/-- R82: bits a layout does not name "do not affect the result and are not checked". Of OPA and OPB, a command's outcome depends
on the layout's low bits alone. Where both executions draw, that they leave one RES is the model's choice and not R15's: they take
the same draw at the same count (log 6). -/
def Obligations.IgnoredOperandBitsDoNotMatter : Prop :=
  ∀ (i : Instr) (s : State) (a b : Word),
    a.toNat % 2 ^ (layoutOf i).opaBits = s.opa.toNat % 2 ^ (layoutOf i).opaBits →
    b.toNat % 2 ^ (layoutOf i).opbBits = s.opb.toNat % 2 ^ (layoutOf i).opbBits →
    ∃ t u, exec i s = .next t ∧ exec i { s with opa := a, opb := b } = .next u ∧
      u.res = t.res ∧ u.acc = t.acc ∧ u.err = t.err

/-- R205, R137: a conversion never signals: whatever its operands, in the domain or out of it, it completes with ERR = 0. -/
def Obligations.ConversionsNeverSignalAnError : Prop :=
  ∀ (i : Instr) (s : State),
    i ∈ [.convT, .convRh, .convRh4, .convT2tick, .convRh2tick, .convAh, .convC2f, .convF2c] →
    ∃ t, exec i s = .next t ∧ t.err = 0#4

/-! ### System commands -/

/-- R190. -/
def Obligations.NopOnlyClearsErr : Prop :=
  decode 0x00000000#32 = .ok .nop ∧ ∀ s : State, exec .nop s = .next { s with err := 0#4 }

/-- R191: the full reset state, within the CMD write, and the same registers the reset input leaves. Events and answers are the
model's host side (log 1, 2, 15). -/
def Obligations.SrstGivesTheResetState : Prop :=
  decode 0x00000001#32 = .ok .srst ∧
  (∀ s : State, exec .srst s =
    .next { s with opa := 0#32, opb := 0#32, res := 0#32, acc := 0xFF#8, err := 0#4 }) ∧
  ∀ (s : State) (a : BusAddr) (rest : List BusEvent), a.toNat = Config.unitBase →
    s.pending = .write a (.single 4) 0x00000001#32 :: rest →
    step s = .next { s with pending := rest, responses := .accepted :: s.responses,
                            opa := 0#32, opb := 0#32, res := 0#32, acc := 0xFF#8, err := 0#4 } ∧
    step s = step { s with pending := .reset :: rest, responses := .accepted :: s.responses }

/-! ### Checksum commands -/

/-- R103. -/
def Obligations.CrcInitSetsTheAccumulator : Prop :=
  decode 0x00000010#32 = .ok .crcInit ∧ ∀ s : State, exec .crcInit s = .next { s with acc := 0xFF#8, err := 0#4 }

/-- R104, R100: the accumulator takes one byte, OPA[7:0]: XOR it in, then 8 rounds of shift left by one and, where the top bit
was set, XOR 0x31. -/
def Obligations.CrcByteRunsEightRounds : Prop :=
  decode 0x00000011#32 = .ok .crcByte ∧ ∀ s : State, exec .crcByte s = .next
    { s with acc := (fun c : Byte => if 128 ≤ c.toNat then BitVec.ofNat 8 (2 * c.toNat) ^^^ 0x31#8
                                     else BitVec.ofNat 8 (2 * c.toNat))^[8] (s.acc ^^^ BitVec.ofNat 8 s.opa.toNat),
             err := 0#4 }

/-- R105: CRC.WORD feeds OPA[15:8] and then OPA[7:0], "the same as CRC.BYTE with OPA[15:8] followed by CRC.BYTE with
OPA[7:0]". -/
def Obligations.CrcWordIsTwoCrcBytes : Prop :=
  decode 0x00000012#32 = .ok .crcWord ∧ ∀ s : State, ∃ t u,
    exec .crcByte { s with opa := BitVec.ofNat 32 (s.opa.toNat / 256 % 256) } = .next t ∧
    exec .crcByte { t with opa := BitVec.ofNat 32 (s.opa.toNat % 256) } = .next u ∧
    exec .crcWord s = .next { s with acc := u.acc, err := 0#4 } ∧
    u.acc = crc8Byte (crc8Byte s.acc (BitVec.ofNat 8 (s.opa.toNat / 256))) (BitVec.ofNat 8 s.opa.toNat)

/-- R106. -/
def Obligations.CrcChkaccComparesTheAccumulator : Prop :=
  decode 0x00000013#32 = .ok .crcChkacc ∧ ∀ s : State,
    (s.acc.toNat = s.opa.toNat % 256 → exec .crcChkacc s = .next { s with err := 0#4 }) ∧
    (s.acc.toNat ≠ s.opa.toNat % 256 → exec .crcChkacc s = .next { s with err := 1#4 })

/-- R107. -/
def Obligations.CrcGen16WritesTheChecksum : Prop :=
  decode 0x00000014#32 = .ok .crcGen16 ∧ ∀ s : State, exec .crcGen16 s = .next
    { s with res := BitVec.ofNat 32
               (crc8 0xFF#8 [BitVec.ofNat 8 (s.opa.toNat / 256), BitVec.ofNat 8 s.opa.toNat]).toNat,
             err := 0#4 }

/-- R108, R201: a match writes the word OPA[23:8] to RES; a mismatch signals 1 and leaves RES and CRC.acc. -/
def Obligations.CrcChk16ChecksAPayloadHalf : Prop :=
  decode 0x00000015#32 = .ok .crcChk16 ∧ ∀ s : State,
    ((crc8 0xFF#8 [BitVec.ofNat 8 (s.opa.toNat / 65536), BitVec.ofNat 8 (s.opa.toNat / 256)]).toNat = s.opa.toNat % 256 →
      exec .crcChk16 s = .next { s with res := BitVec.ofNat 32 (s.opa.toNat / 256 % 65536), err := 0#4 }) ∧
    ((crc8 0xFF#8 [BitVec.ofNat 8 (s.opa.toNat / 65536), BitVec.ofNat 8 (s.opa.toNat / 256)]).toNat ≠ s.opa.toNat % 256 →
      exec .crcChk16 s = .next { s with err := 1#4 })

/-- R110, the residue law. -/
def Obligations.ChecksumResidueIsZero : Prop :=
  ∀ bs : List Byte, crc8 0xFF#8 (bs ++ [crc8 0xFF#8 bs]) = 0x00#8

/-- R107, R108, R83: what CRC.GEN16 makes of a word, CRC.CHK16 accepts beside that word, and gives the word back. The host packs
the half as R83 says. -/
def Obligations.CheckAcceptsWhatGenerateMakes : Prop :=
  ∀ (s : State) (msb lsb : Byte), ∃ t u,
    exec .crcGen16 { s with opa := BitVec.ofNat 32 (msb.toNat * 256 + lsb.toNat) } = .next t ∧
    exec .crcChk16 { t with opa := packHalf msb lsb (BitVec.ofNat 8 t.res.toNat) } = .next u ∧
    u.err = 0#4 ∧ u.res = BitVec.ofNat 32 (msb.toNat * 256 + lsb.toNat)

/-- R108 "Any single corrupted bit in the 24 bits gives a mismatch", and 95_test_vectors.md S6 for a whole byte: of a payload half
that CRC.CHK16 accepts, every change confined to one of the three bytes is a mismatch. -/
def Obligations.OneCorruptedByteIsAlwaysDetected : Prop :=
  ∀ (s t : State) (d : Byte) (k : Nat), exec .crcChk16 s = .next t → t.err = 0#4 → d ≠ 0#8 → k < 3 →
    exec .crcChk16 { s with opa := s.opa ^^^ (BitVec.ofNat 32 (d.toNat * 256 ^ k)) } =
      .next { s with opa := s.opa ^^^ (BitVec.ofNat 32 (d.toNat * 256 ^ k)), err := 1#4 }

/-! ### Tick conversions -/

/-- R131. -/
def Obligations.ConvTGivesMilliCelsius : Prop :=
  decode 0x00000020#32 = .ok .convT ∧ ∀ s : State, exec .convT s = .next
    { s with res := BitVec.ofInt 32 (((21875 * (s.opa.toNat % 65536) / 8192 : Nat) : Int) - 45000), err := 0#4 }

/-- R133. -/
def Obligations.ConvRhGivesMilliPercent : Prop :=
  decode 0x00000021#32 = .ok .convRh ∧ ∀ s : State, exec .convRh s = .next
    { s with res := BitVec.ofNat 32 (12500 * (s.opa.toNat % 65536) / 8192), err := 0#4 }

/-- R135. -/
def Obligations.ConvRh4GivesMilliPercentUnclamped : Prop :=
  decode 0x00000022#32 = .ok .convRh4 ∧ ∀ s : State, exec .convRh4 s = .next
    { s with res := BitVec.ofInt 32 (((15625 * (s.opa.toNat % 65536) / 8192 : Nat) : Int) - 6000), err := 0#4 }

/-- R132, R134, R136: each forward conversion is strictly increasing, consecutive ticks differ by `d` or `d + 1`, and its range
runs from its value at tick 0 to its value at tick 65535. -/
def Obligations.ForwardConversionsIncreaseOverTheirRange : Prop :=
  ∀ (i : Instr) (lo hi d : Int),
    (i, lo, hi, d) ∈ [(Instr.convT, (-45000 : Int), (129997 : Int), (2 : Int)), (.convRh, 0, 99998, 1),
      (.convRh4, -6000, 118998, 1)] →
    ∀ (s : State) (k : Nat), k < 65536 → ∃ t, exec i { s with opa := BitVec.ofNat 32 k } = .next t ∧
      lo ≤ t.res.toInt ∧ t.res.toInt ≤ hi ∧ (k = 0 → t.res.toInt = lo) ∧ (k = 65535 → t.res.toInt = hi) ∧
      (k < 65535 → ∃ u, exec i { s with opa := BitVec.ofNat 32 (k + 1) } = .next u ∧
        (u.res.toInt = t.res.toInt + d ∨ u.res.toInt = t.res.toInt + d + 1))

/-- R140, R141: exact where the 32-bit expression neither overflows nor goes negative, which is -45000 <= t <= 130004; elsewhere a
16-bit draw, with ERR = 0. -/
def Obligations.ConvT2tickInvertsInItsDomain : Prop :=
  decode 0x00000023#32 = .ok .convT2tick ∧
  (∀ t : Int, (0 ≤ t * 12271 + 552195000 ∧ t * 12271 + 552195000 ≤ 2147483647) ↔ (-45000 ≤ t ∧ t ≤ 130004)) ∧
  ∀ s : State,
    (0 ≤ s.opa.toInt * 12271 + 552195000 ∧ s.opa.toInt * 12271 + 552195000 ≤ 2147483647 →
      exec .convT2tick s = .next
        { s with res := BitVec.ofNat 32 ((s.opa.toInt * 12271 + 552195000).toNat / 32768 % 65536), err := 0#4 }) ∧
    (¬(0 ≤ s.opa.toInt * 12271 + 552195000 ∧ s.opa.toInt * 12271 + 552195000 ≤ 2147483647) →
      ∃ (d : BitVec 16) (n : Nat), exec .convT2tick s = .next
        { s with res := BitVec.ofNat 32 d.toNat, draws := n, err := 0#4 })

/-- R142, R143. -/
def Obligations.ConvRh2tickInvertsInItsDomain : Prop :=
  decode 0x00000024#32 = .ok .convRh2tick ∧
  (∀ h : Int, (0 ≤ h * 21474 ∧ h * 21474 ≤ 2147483647) ↔ (0 ≤ h ∧ h ≤ 100003)) ∧
  ∀ s : State,
    (0 ≤ s.opa.toInt * 21474 ∧ s.opa.toInt * 21474 ≤ 2147483647 →
      exec .convRh2tick s = .next
        { s with res := BitVec.ofNat 32 ((s.opa.toInt * 21474).toNat / 32768 % 65536), err := 0#4 }) ∧
    (¬(0 ≤ s.opa.toInt * 21474 ∧ s.opa.toInt * 21474 ≤ 2147483647) →
      ∃ (d : BitVec 16) (n : Nat), exec .convRh2tick s = .next
        { s with res := BitVec.ofNat 32 d.toNat, draws := n, err := 0#4 })

/-- R144 (a) to (d): the errors of the round trips, both ways, for temperature and humidity, with the values the rule names. -/
def Obligations.RoundTripErrorsAreBounded : Prop :=
  (∀ (s : State) (t : Int), -45000 ≤ t → t ≤ 130004 → ∃ u v,
    exec .convT2tick { s with opa := BitVec.ofInt 32 t } = .next u ∧ exec .convT { u with opa := u.res } = .next v ∧
    -8 ≤ v.res.toInt - t ∧ v.res.toInt - t ≤ 0 ∧ (t = -45000 → v.res.toInt - t = 0) ∧
    (t = 113785 → v.res.toInt - t = -8) ∧ (t = 25000 → u.res.toNat = 26213 ∧ v.res.toInt = 24996)) ∧
  (∀ (s : State) (h : Int), 0 ≤ h → h ≤ 100003 → ∃ u v,
    exec .convRh2tick { s with opa := BitVec.ofInt 32 h } = .next u ∧ exec .convRh { u with opa := u.res } = .next v ∧
    -6 ≤ v.res.toInt - h ∧ v.res.toInt - h ≤ 0 ∧ (h = 89362 → v.res.toInt - h = -6)) ∧
  (∀ (s : State) (k : Nat), k < 65536 → ∃ u v,
    exec .convT { s with opa := BitVec.ofNat 32 k } = .next u ∧ exec .convT2tick { u with opa := u.res } = .next v ∧
    -3 ≤ v.res.toInt - k ∧ v.res.toInt - k ≤ 0) ∧
  (∀ (s : State) (k : Nat), k < 65536 → ∃ u v,
    exec .convRh { s with opa := BitVec.ofNat 32 k } = .next u ∧ exec .convRh2tick { u with opa := u.res } = .next v ∧
    -4 ≤ v.res.toInt - k ∧ v.res.toInt - k ≤ 0)

/-- R145: the inverses are non-decreasing in their operand within their domains. -/
def Obligations.InverseConversionsAreMonotone : Prop :=
  (∀ (s : State) (a b : Word), -45000 ≤ a.toInt → a.toInt ≤ b.toInt → b.toInt ≤ 130004 → ∃ t u,
    exec .convT2tick { s with opa := a } = .next t ∧ exec .convT2tick { s with opa := b } = .next u ∧
    t.res.toNat ≤ u.res.toNat ∧ u.res.toNat ≤ 65535) ∧
  (∀ (s : State) (a b : Word), 0 ≤ a.toInt → a.toInt ≤ b.toInt → b.toInt ≤ 100003 → ∃ t u,
    exec .convRh2tick { s with opa := a } = .next t ∧ exec .convRh2tick { s with opa := b } = .next u ∧
    t.res.toNat ≤ u.res.toNat ∧ u.res.toNat ≤ 65535)

/-! ### Absolute humidity -/

/-- R161, with R160, R162 and R163: 0 when the humidity is 0 or less, whatever the temperature and the table. Else, with `r` the
table's value at the clamped temperature (at T_LO or below, in one of the nine segments, at T_HI or above), the result is
floor((r >> 3) h / 12500) while the product fits 32 bits unsigned, and a 32-bit draw beyond. ERR = 0 always. For every table. -/
def Obligations.ConvAhInterpolatesAndScales : Prop :=
  decode 0x00000030#32 = .ok .convAh ∧
  (∀ s : State, s.opb.toInt ≤ 0 → exec .convAh s = .next { s with res := 0x00000000#32, err := 0#4 }) ∧
  ∀ (s : State) (r : Int), 0 < s.opb.toInt →
    ((s.opa.toInt ≤ -20000 ∧ r = s.ahLut[0].toNat) ∨ (70000 ≤ s.opa.toInt ∧ r = s.ahLut[9].toNat) ∨
      ∃ i : Fin 9, -20000 + 10000 * (i.val : Int) ≤ s.opa.toInt ∧ s.opa.toInt < -10000 + 10000 * (i.val : Int) ∧
        r = s.ahLut[i.val].toNat + ((s.ahLut[i.val + 1].toNat : Int) - s.ahLut[i.val].toNat) *
          (s.opa.toInt + 20000 - 10000 * (i.val : Int)) / 10000) →
    (r / 8 * s.opb.toInt ≤ 4294967295 →
      exec .convAh s = .next { s with res := BitVec.ofNat 32 (r / 8 * s.opb.toInt / 12500).toNat, err := 0#4 }) ∧
    (4294967295 < r / 8 * s.opb.toInt →
      ∃ (d : Word) (n : Nat), exec .convAh s = .next { s with res := d, draws := n, err := 0#4 })

/-- R163: "For any table meeting rule R41, the domain contains every h with 0 < h <= 80000": the product fits, so the result is no
draw, and it is at most floor(53687 h / 12500). -/
def Obligations.ConvAhIsExactUpTo80Percent : Prop :=
  ∀ s : State, s.ahLut.Ok → 0 < s.opb.toInt → s.opb.toInt ≤ 80000 →
    ahProduct s.ahLut s.opa.toInt s.opb.toInt ≤ 4294967295 ∧
    ∃ v : Word, exec .convAh s = .next { s with res := v, err := 0#4 } ∧ (v.toNat : Int) ≤ 53687 * s.opb.toInt / 12500

/-- R164 (b) and (c): within the domain, CONV.AH is non-decreasing in the temperature and in the humidity, for every table that
meets R41. -/
def Obligations.ConvAhIsMonotone : Prop :=
  ∀ (s : State) (a a' b b' : Word), s.ahLut.Ok → a.toInt ≤ a'.toInt → b.toInt ≤ b'.toInt →
    ahProduct s.ahLut a'.toInt b'.toInt ≤ 4294967295 →
    ∃ x x' : Word, exec .convAh { s with opa := a, opb := b } = .next { s with opa := a, opb := b, res := x, err := 0#4 } ∧
      exec .convAh { s with opa := a', opb := b' } = .next { s with opa := a', opb := b', res := x', err := 0#4 } ∧
      x.toNat ≤ x'.toNat

/-- R164 (a), (d) and (e), within the domain, and 95_test_vectors.md A5: where the result is 0; that it is constant at or below
T_LO and at or above T_HI; its value at a breakpoint at 100 %RH and at 12.5 %RH. -/
def Obligations.ConvAhBoundaryLaws : Prop :=
  (∀ s : State, ahProduct s.ahLut s.opa.toInt s.opb.toInt ≤ 4294967295 → ∃ t, exec .convAh s = .next t ∧
    (t.res = 0#32 ↔ s.opb.toInt ≤ 0 ∨ ahProduct s.ahLut s.opa.toInt s.opb.toInt < 12500)) ∧
  (∀ (s : State) (a b : Word), ahProduct s.ahLut a.toInt s.opb.toInt ≤ 4294967295 →
    ((a.toInt ≤ -20000 ∧ b.toInt ≤ -20000) ∨ (70000 ≤ a.toInt ∧ 70000 ≤ b.toInt)) → ∃ t u,
    exec .convAh { s with opa := a } = .next t ∧ exec .convAh { s with opa := b } = .next u ∧ u.res = t.res) ∧
  (∀ (s : State) (i : Fin 10), s.ahLut.Ok → s.opa.toInt = -20000 + 10000 * (i.val : Int) →
    (s.opb.toInt = 100000 → s.ahLut[i.val].toNat / 8 * 100000 ≤ 4294967295 →
      exec .convAh s = .next { s with res := BitVec.ofNat 32 (8 * (s.ahLut[i.val].toNat / 8)), err := 0#4 }) ∧
    (s.opb.toInt = 12500 →
      exec .convAh s = .next { s with res := BitVec.ofNat 32 (s.ahLut[i.val].toNat / 8), err := 0#4 }))

/-! ### Celsius/Fahrenheit scaler -/

/-- R170, R171: exact in the valid range, endpoints included, rounded toward zero; a 32-bit draw outside, with ERR = 0. -/
def Obligations.ConvC2fScalesInItsRange : Prop :=
  decode 0x00000040#32 = .ok .convC2f ∧ ∀ s : State,
    (0 ≤ s.opa.toInt → s.opa.toInt ≤ 291000 →
      exec .convC2f s = .next { s with res := BitVec.ofInt 32 (9 * s.opa.toInt / 5 + 32000), err := 0#4 }) ∧
    (-291000 ≤ s.opa.toInt → s.opa.toInt < 0 →
      exec .convC2f s = .next { s with res := BitVec.ofInt 32 (32000 - 9 * (-s.opa.toInt) / 5), err := 0#4 }) ∧
    (s.opa.toInt < -291000 ∨ 291000 < s.opa.toInt →
      ∃ (d : Word) (n : Nat), exec .convC2f s = .next { s with res := d, draws := n, err := 0#4 })

/-- R172, R173. -/
def Obligations.ConvF2cScalesInItsRange : Prop :=
  decode 0x00000041#32 = .ok .convF2c ∧ ∀ s : State,
    (32000 ≤ s.opa.toInt → s.opa.toInt ≤ 3635000 →
      exec .convF2c s = .next { s with res := BitVec.ofInt 32 (5 * (s.opa.toInt - 32000) / 9), err := 0#4 }) ∧
    (-3571000 ≤ s.opa.toInt → s.opa.toInt < 32000 →
      exec .convF2c s = .next { s with res := BitVec.ofInt 32 (-(5 * (32000 - s.opa.toInt) / 9)), err := 0#4 }) ∧
    (s.opa.toInt < -3571000 ∨ 3635000 < s.opa.toInt →
      ∃ (d : Word) (n : Nat), exec .convF2c s = .next { s with res := d, draws := n, err := 0#4 })

/-- R174 (a), (b), (c), as laws of the commands. (b) is stated where CONV.F2C's result lies in CONV.C2F's valid range, that is
for -491801 <= f <= 555801: beyond that the second command draws (log 19). -/
def Obligations.ScalerRoundTripsAndOrder : Prop :=
  (∀ (s : State) (c : Int), -291000 ≤ c → c ≤ 291000 → ∃ u v,
    exec .convC2f { s with opa := BitVec.ofInt 32 c } = .next u ∧ exec .convF2c { u with opa := u.res } = .next v ∧
    -1 ≤ v.res.toInt - c ∧ v.res.toInt - c ≤ 1) ∧
  (∀ (s : State) (f : Int), -491801 ≤ f → f ≤ 555801 → ∃ u v,
    exec .convF2c { s with opa := BitVec.ofInt 32 f } = .next u ∧ exec .convC2f { u with opa := u.res } = .next v ∧
    -2 ≤ v.res.toInt - f ∧ v.res.toInt - f ≤ 2) ∧
  (∀ (s : State) (a b : Int), -291000 ≤ a → a ≤ b → b ≤ 291000 → ∃ t u,
    exec .convC2f { s with opa := BitVec.ofInt 32 a } = .next t ∧ exec .convC2f { s with opa := BitVec.ofInt 32 b } = .next u ∧
    t.res.toInt ≤ u.res.toInt ∧ (a = -40000 → t.res.toInt = -40000)) ∧
  (∀ (s : State) (a b : Int), -3571000 ≤ a → a ≤ b → b ≤ 3635000 → ∃ t u,
    exec .convF2c { s with opa := BitVec.ofInt 32 a } = .next t ∧ exec .convF2c { s with opa := BitVec.ofInt 32 b } = .next u ∧
    t.res.toInt ≤ u.res.toInt ∧ (a = -40000 → t.res.toInt = -40000))
end

