-- ==== Sys2Proof/Laws/State.lean ====
section
/-! SUPPORT. One lemma per field per update of the state, so that no proof unfolds a record update. -/

namespace Sys2Proof.Machine.State

@[simp] theorem setOpa_opa (s : State) (v : Word) : (s.setOpa v).opa = v := rfl
@[simp] theorem setOpa_opb (s : State) (v : Word) : (s.setOpa v).opb = s.opb := rfl
@[simp] theorem setOpa_res (s : State) (v : Word) : (s.setOpa v).res = s.res := rfl
@[simp] theorem setOpa_acc (s : State) (v : Word) : (s.setOpa v).acc = s.acc := rfl
@[simp] theorem setOpa_err (s : State) (v : Word) : (s.setOpa v).err = s.err := rfl
@[simp] theorem setOpa_ahLut (s : State) (v : Word) : (s.setOpa v).ahLut = s.ahLut := rfl
@[simp] theorem setOpa_draws (s : State) (v : Word) : (s.setOpa v).draws = s.draws := rfl
@[simp] theorem setOpa_pending (s : State) (v : Word) : (s.setOpa v).pending = s.pending := rfl
@[simp] theorem setOpa_responses (s : State) (v : Word) : (s.setOpa v).responses = s.responses := rfl

@[simp] theorem setOpb_opa (s : State) (v : Word) : (s.setOpb v).opa = s.opa := rfl
@[simp] theorem setOpb_opb (s : State) (v : Word) : (s.setOpb v).opb = v := rfl
@[simp] theorem setOpb_res (s : State) (v : Word) : (s.setOpb v).res = s.res := rfl
@[simp] theorem setOpb_acc (s : State) (v : Word) : (s.setOpb v).acc = s.acc := rfl
@[simp] theorem setOpb_err (s : State) (v : Word) : (s.setOpb v).err = s.err := rfl
@[simp] theorem setOpb_ahLut (s : State) (v : Word) : (s.setOpb v).ahLut = s.ahLut := rfl
@[simp] theorem setOpb_draws (s : State) (v : Word) : (s.setOpb v).draws = s.draws := rfl
@[simp] theorem setOpb_pending (s : State) (v : Word) : (s.setOpb v).pending = s.pending := rfl
@[simp] theorem setOpb_responses (s : State) (v : Word) : (s.setOpb v).responses = s.responses := rfl

@[simp] theorem setRes_opa (s : State) (v : Word) : (s.setRes v).opa = s.opa := rfl
@[simp] theorem setRes_opb (s : State) (v : Word) : (s.setRes v).opb = s.opb := rfl
@[simp] theorem setRes_res (s : State) (v : Word) : (s.setRes v).res = v := rfl
@[simp] theorem setRes_acc (s : State) (v : Word) : (s.setRes v).acc = s.acc := rfl
@[simp] theorem setRes_err (s : State) (v : Word) : (s.setRes v).err = s.err := rfl
@[simp] theorem setRes_ahLut (s : State) (v : Word) : (s.setRes v).ahLut = s.ahLut := rfl
@[simp] theorem setRes_draws (s : State) (v : Word) : (s.setRes v).draws = s.draws := rfl
@[simp] theorem setRes_pending (s : State) (v : Word) : (s.setRes v).pending = s.pending := rfl
@[simp] theorem setRes_responses (s : State) (v : Word) : (s.setRes v).responses = s.responses := rfl

@[simp] theorem setAcc_opa (s : State) (c : Byte) : (s.setAcc c).opa = s.opa := rfl
@[simp] theorem setAcc_opb (s : State) (c : Byte) : (s.setAcc c).opb = s.opb := rfl
@[simp] theorem setAcc_res (s : State) (c : Byte) : (s.setAcc c).res = s.res := rfl
@[simp] theorem setAcc_acc (s : State) (c : Byte) : (s.setAcc c).acc = c := rfl
@[simp] theorem setAcc_err (s : State) (c : Byte) : (s.setAcc c).err = s.err := rfl
@[simp] theorem setAcc_ahLut (s : State) (c : Byte) : (s.setAcc c).ahLut = s.ahLut := rfl
@[simp] theorem setAcc_draws (s : State) (c : Byte) : (s.setAcc c).draws = s.draws := rfl
@[simp] theorem setAcc_pending (s : State) (c : Byte) : (s.setAcc c).pending = s.pending := rfl
@[simp] theorem setAcc_responses (s : State) (c : Byte) : (s.setAcc c).responses = s.responses := rfl

@[simp] theorem drawRes16_opa (s : State) : (s.drawRes16).opa = s.opa := rfl
@[simp] theorem drawRes16_opb (s : State) : (s.drawRes16).opb = s.opb := rfl
@[simp] theorem drawRes16_res (s : State) : (s.drawRes16).res = (Config.draw16 s.draws).setWidth 32 := rfl
@[simp] theorem drawRes16_acc (s : State) : (s.drawRes16).acc = s.acc := rfl
@[simp] theorem drawRes16_err (s : State) : (s.drawRes16).err = s.err := rfl
@[simp] theorem drawRes16_ahLut (s : State) : (s.drawRes16).ahLut = s.ahLut := rfl
@[simp] theorem drawRes16_draws (s : State) : (s.drawRes16).draws = s.draws + 1 := rfl
@[simp] theorem drawRes16_pending (s : State) : (s.drawRes16).pending = s.pending := rfl
@[simp] theorem drawRes16_responses (s : State) : (s.drawRes16).responses = s.responses := rfl

@[simp] theorem drawRes32_opa (s : State) : (s.drawRes32).opa = s.opa := rfl
@[simp] theorem drawRes32_opb (s : State) : (s.drawRes32).opb = s.opb := rfl
@[simp] theorem drawRes32_res (s : State) : (s.drawRes32).res = Config.draw32 s.draws := rfl
@[simp] theorem drawRes32_acc (s : State) : (s.drawRes32).acc = s.acc := rfl
@[simp] theorem drawRes32_err (s : State) : (s.drawRes32).err = s.err := rfl
@[simp] theorem drawRes32_ahLut (s : State) : (s.drawRes32).ahLut = s.ahLut := rfl
@[simp] theorem drawRes32_draws (s : State) : (s.drawRes32).draws = s.draws + 1 := rfl
@[simp] theorem drawRes32_pending (s : State) : (s.drawRes32).pending = s.pending := rfl
@[simp] theorem drawRes32_responses (s : State) : (s.drawRes32).responses = s.responses := rfl

@[simp] theorem resetUnit_opa (s : State) : (s.resetUnit).opa = 0#32 := rfl
@[simp] theorem resetUnit_opb (s : State) : (s.resetUnit).opb = 0#32 := rfl
@[simp] theorem resetUnit_res (s : State) : (s.resetUnit).res = 0#32 := rfl
@[simp] theorem resetUnit_acc (s : State) : (s.resetUnit).acc = 0xFF#8 := rfl
@[simp] theorem resetUnit_err (s : State) : (s.resetUnit).err = 0#4 := rfl
@[simp] theorem resetUnit_ahLut (s : State) : (s.resetUnit).ahLut = s.ahLut := rfl
@[simp] theorem resetUnit_draws (s : State) : (s.resetUnit).draws = s.draws := rfl
@[simp] theorem resetUnit_pending (s : State) : (s.resetUnit).pending = s.pending := rfl
@[simp] theorem resetUnit_responses (s : State) : (s.resetUnit).responses = s.responses := rfl

@[simp] theorem answer_opa (s : State) (r : Response) : (s.answer r).opa = s.opa := rfl
@[simp] theorem answer_opb (s : State) (r : Response) : (s.answer r).opb = s.opb := rfl
@[simp] theorem answer_res (s : State) (r : Response) : (s.answer r).res = s.res := rfl
@[simp] theorem answer_acc (s : State) (r : Response) : (s.answer r).acc = s.acc := rfl
@[simp] theorem answer_err (s : State) (r : Response) : (s.answer r).err = s.err := rfl
@[simp] theorem answer_ahLut (s : State) (r : Response) : (s.answer r).ahLut = s.ahLut := rfl
@[simp] theorem answer_draws (s : State) (r : Response) : (s.answer r).draws = s.draws := rfl
@[simp] theorem answer_pending (s : State) (r : Response) : (s.answer r).pending = s.pending := rfl
@[simp] theorem answer_responses (s : State) (r : Response) : (s.answer r).responses = r :: s.responses := rfl

@[simp] theorem busError_opa (s : State) (a : BusAddr) : (s.busError a).opa = s.opa := rfl
@[simp] theorem busError_opb (s : State) (a : BusAddr) : (s.busError a).opb = s.opb := rfl
@[simp] theorem busError_res (s : State) (a : BusAddr) : (s.busError a).res = s.res := rfl
@[simp] theorem busError_acc (s : State) (a : BusAddr) : (s.busError a).acc = s.acc := rfl
@[simp] theorem busError_err (s : State) (a : BusAddr) : (s.busError a).err = s.err := rfl
@[simp] theorem busError_ahLut (s : State) (a : BusAddr) : (s.busError a).ahLut = s.ahLut := rfl
@[simp] theorem busError_draws (s : State) (a : BusAddr) : (s.busError a).draws = s.draws := rfl
@[simp] theorem busError_pending (s : State) (a : BusAddr) : (s.busError a).pending = s.pending := rfl
@[simp] theorem busError_responses (s : State) (a : BusAddr) : (s.busError a).responses = .fault (.busError a) :: s.responses := rfl

@[simp] theorem signal_opa (s : State) (e : ErrCode) : (s.signal e).opa = s.opa := rfl
@[simp] theorem signal_opb (s : State) (e : ErrCode) : (s.signal e).opb = s.opb := rfl
@[simp] theorem signal_res (s : State) (e : ErrCode) : (s.signal e).res = s.res := rfl
@[simp] theorem signal_acc (s : State) (e : ErrCode) : (s.signal e).acc = s.acc := rfl
@[simp] theorem signal_err (s : State) (e : ErrCode) : (s.signal e).err = e.code := rfl
@[simp] theorem signal_ahLut (s : State) (e : ErrCode) : (s.signal e).ahLut = s.ahLut := rfl
@[simp] theorem signal_draws (s : State) (e : ErrCode) : (s.signal e).draws = s.draws := rfl
@[simp] theorem signal_pending (s : State) (e : ErrCode) : (s.signal e).pending = s.pending := rfl
@[simp] theorem signal_responses (s : State) (e : ErrCode) : (s.signal e).responses = s.responses := rfl

end Sys2Proof.Machine.State
end

