-- ==== Sys2Proof/Laws/Exec.lean ====
section
/-! SUPPORT. What a command can do, said once. -/

namespace Sys2Proof.Machine

/-- Every command either resets the unit, or writes ERR and at most one of RES and CRC.acc; a draw goes to RES. Each case names
the commands it can come from. -/
inductive CommandEffect (i : Instr) (s : State) : State → Prop
  | reset (h : i = .srst) : CommandEffect i s (s.resetUnit.signal .ok)
  | signal (h : i = .nop ∨ i = .crcChkacc) : CommandEffect i s (s.signal .ok)
  | mismatch (h : i = .crcChkacc ∨ i = .crcChk16) : CommandEffect i s (s.signal .checksumMismatch)
  | accumulate (c : Byte) (h : i = .crcInit ∨ i = .crcByte ∨ i = .crcWord) : CommandEffect i s ((s.setAcc c).signal .ok)
  | result (v : Word) (h : i ∉ [.nop, .srst, .crcInit, .crcByte, .crcWord, .crcChkacc]) :
      CommandEffect i s ((s.setRes v).signal .ok)
  | draw16 (h : i = .convT2tick ∨ i = .convRh2tick) : CommandEffect i s (s.drawRes16.signal .ok)
  | draw32 (h : i = .convAh ∨ i = .convC2f ∨ i = .convF2c) : CommandEffect i s (s.drawRes32.signal .ok)

/-- Every command answers with a next state of one of these forms. -/
theorem exec_effect (i : Instr) (s : State) : ∃ t, exec i s = .next t ∧ CommandEffect i s t := by
  cases i with
  | nop => exact ⟨_, rfl, .signal (.inl rfl)⟩
  | srst => exact ⟨_, rfl, .reset rfl⟩
  | crcInit => exact ⟨_, rfl, .accumulate _ (by simp)⟩
  | crcByte => exact ⟨_, rfl, .accumulate _ (by simp)⟩
  | crcWord => exact ⟨_, rfl, .accumulate _ (by simp)⟩
  | crcChkacc =>
    simp only [exec, execCrcChkacc]
    split
    · exact ⟨_, rfl, .signal (.inr rfl)⟩
    · exact ⟨_, rfl, .mismatch (.inl rfl)⟩
  | crcGen16 => exact ⟨_, rfl, .result _ (by simp)⟩
  | crcChk16 =>
    simp only [exec, execCrcChk16]
    split
    · exact ⟨_, rfl, .result _ (by simp)⟩
    · exact ⟨_, rfl, .mismatch (.inr rfl)⟩
  | convT => exact ⟨_, rfl, .result _ (by simp)⟩
  | convRh => exact ⟨_, rfl, .result _ (by simp)⟩
  | convRh4 => exact ⟨_, rfl, .result _ (by simp)⟩
  | convT2tick =>
    simp only [exec, execConvT2tick]
    split
    · exact ⟨_, rfl, .result _ (by simp)⟩
    · exact ⟨_, rfl, .draw16 (.inl rfl)⟩
  | convRh2tick =>
    simp only [exec, execConvRh2tick]
    split
    · exact ⟨_, rfl, .result _ (by simp)⟩
    · exact ⟨_, rfl, .draw16 (.inr rfl)⟩
  | convAh =>
    simp only [exec, execConvAh]
    split
    · exact ⟨_, rfl, .result _ (by simp)⟩
    · split
      · exact ⟨_, rfl, .result _ (by simp)⟩
      · exact ⟨_, rfl, .draw32 (.inl rfl)⟩
  | convC2f =>
    simp only [exec, execConvC2f]
    split
    · exact ⟨_, rfl, .result _ (by simp)⟩
    · exact ⟨_, rfl, .draw32 (.inr (.inl rfl))⟩
  | convF2c =>
    simp only [exec, execConvF2c]
    split
    · exact ⟨_, rfl, .result _ (by simp)⟩
    · exact ⟨_, rfl, .draw32 (.inr (.inr rfl))⟩

/-- Inversion: if a command answers with `t`, then `t` has one of the forms. -/
theorem exec_cases {i : Instr} {s t : State} (h : exec i s = .next t) : CommandEffect i s t := by
  obtain ⟨u, hu, he⟩ := exec_effect i s
  rw [hu] at h
  cases h
  exact he

/-- A command leaves the host's side alone. -/
theorem exec_hostSide {i : Instr} {s t : State} (h : exec i s = .next t) :
    t.pending = s.pending ∧ t.responses = s.responses := by
  cases exec_cases h <;> exact ⟨rfl, rfl⟩

/-- A command neither reads nor writes the host's side: put another host side in, and the same comes out beside it. -/
theorem exec_withHostSide (i : Instr) (s t : State) (p : List BusEvent) (r : List Response) (h : exec i s = .next t) :
    exec i { s with pending := p, responses := r } = .next { t with pending := p, responses := r } := by
  cases i with
  | crcChkacc => simp only [exec, execCrcChkacc] at h ⊢; split_ifs at h ⊢ <;> cases h <;> rfl
  | crcChk16 => simp only [exec, execCrcChk16] at h ⊢; split_ifs at h ⊢ <;> cases h <;> rfl
  | convT2tick => simp only [exec, execConvT2tick] at h ⊢; split_ifs at h ⊢ <;> cases h <;> rfl
  | convRh2tick => simp only [exec, execConvRh2tick] at h ⊢; split_ifs at h ⊢ <;> cases h <;> rfl
  | convAh => simp only [exec, execConvAh] at h ⊢; split_ifs at h ⊢ <;> cases h <;> rfl
  | convC2f => simp only [exec, execConvC2f] at h ⊢; split_ifs at h ⊢ <;> cases h <;> rfl
  | convF2c => simp only [exec, execConvF2c] at h ⊢; split_ifs at h ⊢ <;> cases h <;> rfl
  | _ => cases h; rfl

end Sys2Proof.Machine
end

