-- ==== Sys2Proof/Laws/Ops.lean ====
section
/-! SUPPORT. The spec lemmas of the shared operations of Machine/Ops.lean. -/

namespace Sys2Proof.Machine

/-- An address resolves to an offset exactly when it is UNIT_BASE plus that offset (20_memory.md R60). -/
theorem BusAddr.windowOffset_eq_some {a : BusAddr} {off : Offset} :
    a.windowOffset = some off ↔ a.toNat = Config.unitBase + off.toNat := by
  cases a with
  | window o =>
    simp only [windowOffset, toNat, Option.some.injEq, Nat.add_left_cancel_iff]
    exact BitVec.toNat_inj.symm
  | bus n =>
    have := off.isLt
    simp only [windowOffset, toNat]
    split
    · rw [Option.some.injEq, ← BitVec.toNat_inj, BitVec.toNat_ofNat]
      omega
    · simp only [reduceCtorEq, false_iff]
      omega

/-- An address is outside the window exactly when it is below UNIT_BASE or 32 or more above it. -/
theorem BusAddr.windowOffset_eq_none {a : BusAddr} :
    a.windowOffset = none ↔ a.toNat < Config.unitBase ∨ Config.unitBase + 32 ≤ a.toNat := by
  cases a with
  | window o =>
    have := o.isLt
    simp only [windowOffset, toNat, reduceCtorEq, false_iff]
    omega
  | bus n =>
    simp only [windowOffset, toNat]
    split
    · simp only [reduceCtorEq, false_iff]
      omega
    · simp only [true_iff]
      omega

@[simp] theorem Reg.ofOffset_offset (r : Reg) : Reg.ofOffset r.offset = some r := by cases r <;> rfl

theorem BusSize.isWord_iff (n : BusSize) : n.isWord = true ↔ n = .single 4 := by
  cases n <;> simp [isWord]

theorem floorDiv_of_pos (a : Int) {b : Int} (hb : 0 < b) : floorDiv a b = a / b :=
  Int.fdiv_eq_ediv_of_nonneg a hb.le

theorem shr_eq (a : Int) (n : Nat) : shr a n = a / 2 ^ n := floorDiv_of_pos a (by positivity)

/-- Rounding toward zero, by the sign of the dividend. -/
theorem tdiv_eq (a b : Int) : tdiv a b = if 0 ≤ a then a / b else -(-a / b) := by
  unfold tdiv
  split
  · next h => exact Int.tdiv_eq_ediv_of_nonneg h
  · next h =>
    rw [← neg_neg (a.tdiv b), ← Int.neg_tdiv]
    exact congrArg _ (Int.tdiv_eq_ediv_of_nonneg (by omega))

theorem toInt_bits32 {z : Int} (hl : -2147483648 ≤ z) (hu : z ≤ 2147483647) : (bits32 z).toInt = z := by
  rw [bits32, BitVec.toInt_ofInt]
  exact Int.bmod_eq_of_le (by simpa using hl) (by simp; omega)

theorem toNat_bits32 {z : Int} (hl : 0 ≤ z) (hu : z ≤ 4294967295) : ((bits32 z).toNat : Int) = z := by
  rw [bits32, BitVec.toNat_ofInt]
  omega

theorem toNat_low16 {z : Int} (hl : 0 ≤ z) (hu : z ≤ 65535) : ((low16 z).toNat : Int) = z := by
  rw [low16, BitVec.toNat_setWidth, BitVec.toNat_ofInt]
  omega

theorem low16_of_nonneg {z : Int} (h : 0 ≤ z) : low16 z = BitVec.ofNat 32 (z.toNat % 65536) := by
  apply BitVec.eq_of_toNat_eq
  rw [low16, BitVec.toNat_setWidth, BitVec.toNat_ofInt, BitVec.toNat_ofNat]
  omega

end Sys2Proof.Machine
end

