-- ==== Sys2Proof/Laws/Bus.lean ====
section
/-! SUPPORT. What an access and a step can do, said once. -/

namespace Sys2Proof.Machine

@[simp] theorem step_of_nil {s : State} (h : s.pending = []) : step s = .next s := by
  simp only [step, servePending, h]

theorem step_of_cons {s : State} {e : BusEvent} {rest : List BusEvent} (h : s.pending = e :: rest) :
    step s = serve e { s with pending := rest } := by
  simp only [step, servePending, h]

/-- A read only answers (20_memory.md R66). -/
theorem accessRead_eq_answer (a : BusAddr) (n : BusSize) (off : Offset) (s : State) :
    ∃ r, accessRead a n off s = s.answer r := by
  unfold accessRead
  split
  · split <;> exact ⟨_, rfl⟩
  · exact ⟨_, rfl⟩

/-- What serving one event can do. -/
inductive EventEffect (e : BusEvent) (s : State) : State → Prop
  | reset (h : e = .reset) : EventEffect e s s.resetUnit
  | unseen : EventEffect e s s
  | answer (r : Response) : EventEffect e s (s.answer r)
  | writeOpa (v : Word) : EventEffect e s ((s.answer .accepted).setOpa v)
  | writeOpb (v : Word) : EventEffect e s ((s.answer .accepted).setOpb v)
  | illegal (a : BusAddr) (w : Word) (h : e = .write a (.single 4) w) :
      EventEffect e s ((s.answer .accepted).signal .illegalOperation)
  | command (a : BusAddr) (w : Word) (i : Instr) (t : State) (h : e = .write a (.single 4) w) (hd : decode w = .ok i)
      (ht : exec i (s.answer .accepted) = .next t) : EventEffect e s t

/-- Every event is served, with one of these effects. -/
theorem serve_effect (e : BusEvent) (s : State) : ∃ t, serve e s = .next t ∧ EventEffect e s t := by
  cases e with
  | reset => exact ⟨_, rfl, .reset rfl⟩
  | read a n =>
    simp only [serve]
    split
    · next off _ =>
      obtain ⟨r, hr⟩ := accessRead_eq_answer a n off s
      exact ⟨_, rfl, hr ▸ .answer r⟩
    · exact ⟨_, rfl, .unseen⟩
  | write a n v =>
    simp only [serve]
    split
    · simp only [accessWrite]
      split
      · next hn =>
        have hn : n = .single 4 := (BusSize.isWord_iff n).mp (by simp_all)
        subst hn
        split
        · simp only [executeCommand]
          split
          · next i hd =>
            obtain ⟨t, ht, _⟩ := exec_effect i (s.answer .accepted)
            exact ⟨t, ht, .command a v i t rfl hd ht⟩
          · exact ⟨_, rfl, .illegal a v rfl⟩
        · exact ⟨_, rfl, .writeOpa v⟩
        · exact ⟨_, rfl, .writeOpb v⟩
        all_goals exact ⟨_, rfl, .answer _⟩
      · exact ⟨_, rfl, .answer _⟩
    · exact ⟨_, rfl, .unseen⟩

/-- Inversion of `serve`. -/
theorem serve_cases {e : BusEvent} {s t : State} (h : serve e s = .next t) : EventEffect e s t := by
  obtain ⟨u, hu, he⟩ := serve_effect e s
  rw [hu] at h
  cases h
  exact he

/-- The unit's whole dealing with the host's side in one event: it adds some answers (one, or none) in front, leaves the pending
list alone, and is the same whatever that side holds. -/
theorem serve_hostSide {e : BusEvent} {s t : State} (h : serve e s = .next t) :
    ∃ rs, t.pending = s.pending ∧ t.responses = rs ++ s.responses ∧
      ∀ p q, serve e { s with pending := p, responses := q } = .next { t with pending := p, responses := rs ++ q } := by
  cases e with
  | reset => cases h; exact ⟨[], rfl, rfl, fun _ _ => rfl⟩
  | read a n =>
    simp only [serve] at h ⊢
    cases ha : a.windowOffset with
    | none => simp only [ha] at h ⊢; cases h; exact ⟨[], rfl, rfl, fun _ _ => rfl⟩
    | some off =>
      simp only [ha] at h ⊢
      cases h
      by_cases hn : (n.isWord && aligned off) = true
      · simp only [accessRead, hn, if_true]
        cases Reg.ofOffset off with
        | none => exact ⟨[_], rfl, rfl, fun _ _ => rfl⟩
        | some r => cases r <;> exact ⟨[_], rfl, rfl, fun _ _ => rfl⟩
      · simp only [accessRead, if_neg hn]
        exact ⟨[_], rfl, rfl, fun _ _ => rfl⟩
  | write a n v =>
    simp only [serve] at h ⊢
    cases ha : a.windowOffset with
    | none => simp only [ha] at h ⊢; cases h; exact ⟨[], rfl, rfl, fun _ _ => rfl⟩
    | some off =>
      simp only [ha, accessWrite] at h ⊢
      by_cases hn : (n.isWord && aligned off) = true
      · simp only [hn, if_true] at h ⊢
        cases hr : Reg.ofOffset off with
        | none => simp only [hr] at h; cases h; exact ⟨[_], rfl, rfl, fun _ _ => rfl⟩
        | some r =>
          simp only [hr] at h
          cases r with
          | cmd =>
            simp only [executeCommand] at h ⊢
            cases hd : decode v with
            | error _ => simp only [hd] at h; cases h; exact ⟨[_], rfl, rfl, fun _ _ => rfl⟩
            | ok i =>
              simp only [hd] at h
              have ht := exec_hostSide h
              exact ⟨[.accepted], ht.1, ht.2, fun p q => exec_withHostSide i (s.answer .accepted) t p (.accepted :: q) h⟩
          | _ => cases h; exact ⟨[_], rfl, rfl, fun _ _ => rfl⟩
      · simp only [if_neg hn] at h ⊢
        cases h
        exact ⟨[_], rfl, rfl, fun _ _ => rfl⟩

/-- Inversion of a step: nothing was pending and nothing changed, or the oldest event was served. -/
theorem step_cases {s t : State} (h : step s = .next t) :
    (s.pending = [] ∧ t = s) ∨
      ∃ e rest, s.pending = e :: rest ∧ EventEffect e { s with pending := rest } t := by
  cases hp : s.pending with
  | nil => rw [step_of_nil hp] at h; cases h; exact .inl ⟨rfl, rfl⟩
  | cons e rest => rw [step_of_cons hp] at h; exact .inr ⟨e, rest, rfl, serve_cases h⟩

end Sys2Proof.Machine
end

