-- ==== Sys2Proof/Laws/Config.lean ====
section
/-! SUPPORT. What the table made from a sequence is (10_state.md R41). -/

namespace Sys2Proof.AhLut

theorem entryOfRaw_le_bound (raw : Nat → Nat) (i : Nat) : entryOfRaw raw i ≤ 429496 := by
  induction i with
  | zero => exact Nat.min_le_right _ _
  | succ i ih => exact Nat.max_le.mpr ⟨ih, Nat.min_le_right _ _⟩

theorem entryOfRaw_le_succ (raw : Nat → Nat) (i : Nat) : entryOfRaw raw i ≤ entryOfRaw raw (i + 1) :=
  Nat.le_max_left _ _

/-- The table's entries are the sequence's, with nothing lost in 32 bits. -/
theorem toNat_ofRaw (raw : Nat → Nat) (i : Nat) (h : i < 10) : (ofRaw raw)[i].toNat = entryOfRaw raw i := by
  have := entryOfRaw_le_bound raw i
  simp only [ofRaw, Vector.getElem_ofFn, BitVec.toNat_ofNat]
  omega

/-- A sequence that is non-decreasing and bounded up to `i` is left as it is. -/
theorem entryOfRaw_of_monotone (raw : Nat → Nat) (i : Nat) (hm : ∀ j < i, raw j ≤ raw (j + 1))
    (hb : ∀ j ≤ i, raw j ≤ 429496) : entryOfRaw raw i = raw i := by
  induction i with
  | zero => exact Nat.min_eq_left (hb 0 le_rfl)
  | succ i ih =>
    rw [entryOfRaw, ih (fun j hj => hm j (by omega)) (fun j hj => hb j (by omega)), Nat.min_eq_left (hb _ le_rfl)]
    exact Nat.max_eq_right (hm i (by omega))

end Sys2Proof.AhLut
end

