-- ==== Sys2Proof/Laws/Crc.lean ====
section
/-! SUPPORT. The CRC-8 primitives (41_checksum.md R100, R101). -/

namespace Sys2Proof.Machine

/-- One round as a shift and a masked polynomial: the form in which it is seen to be linear over XOR. -/
theorem crcRound_eq (c : Byte) : crcRound c = (c <<< 1) ^^^ (if c.getLsbD 7 then crcPoly else 0#8) := by
  unfold crcRound
  split <;> simp_all

theorem crcRound_xor (a b : Byte) : crcRound (a ^^^ b) = crcRound a ^^^ crcRound b := by
  simp only [crcRound_eq, BitVec.getLsbD_xor, BitVec.shiftLeft_xor_distrib]
  cases a.getLsbD 7 <;> cases b.getLsbD 7 <;> simp
  · ac_rfl
  · ac_rfl
  · rw [BitVec.xor_assoc, BitVec.xor_comm _ crcPoly, ← BitVec.xor_assoc crcPoly, BitVec.xor_self, BitVec.zero_xor]

theorem crcRounds_xor (n : Nat) (a b : Byte) : crcRounds n (a ^^^ b) = crcRounds n a ^^^ crcRounds n b := by
  induction n generalizing a b with
  | zero => rfl
  | succ n ih => simp only [crcRounds, crcRound_xor, ih]

theorem crcRounds_zero (n : Nat) : crcRounds n 0#8 = 0#8 := by
  induction n with
  | zero => rfl
  | succ n ih => exact ih

/-- The one byte that 8 rounds take to zero is zero. -/
theorem crcRounds_eight_eq_zero : ∀ c : Byte, crcRounds 8 c = 0#8 → c = 0#8 := by decide +revert

/-- crc8 over a sequence is crc8 over its tail from the value its head leaves (R101). -/
@[simp] theorem crc8_nil (c : Byte) : crc8 c [] = c := rfl
@[simp] theorem crc8_cons (c b : Byte) (bs : List Byte) : crc8 c (b :: bs) = crc8 (crc8Byte c b) bs := rfl
theorem crc8_append (c : Byte) (xs ys : List Byte) : crc8 c (xs ++ ys) = crc8 (crc8 c xs) ys := List.foldl_append

end Sys2Proof.Machine
end

