-- ==== Sys2Proof/Laws/Humidity.lean ====
section
/-! SUPPORT. The interpolation of CONV.AH (43_humidity_lut_and_scaler.md R161 to R163). -/

namespace Sys2Proof.Machine

theorem ahProduct_eq (lut : AhLut) (t h : Int) : ahProduct lut t h = ahInterpolate lut (ahOffset t) / 8 * h := by
  unfold ahProduct
  rw [shr_eq]
  rfl

/-- The value inside segment `i`, by its distance from the breakpoint. -/
theorem ahInterpolate_segment (lut : AhLut) (i rem : Nat) (hi : i < 9) (hr : rem < 10000) :
    ahInterpolate lut (10000 * i + rem) =
      lut[i].toNat + ((lut[i + 1].toNat : Int) - lut[i].toNat) * rem / 10000 := by
  have h1 : (10000 * i + rem) / tStep = i := by simp only [tStep]; omega
  have h2 : (10000 * i + rem) % tStep = rem := by simp only [tStep]; omega
  unfold ahInterpolate
  simp only [h1, h2, hi, dite_true]
  rw [floorDiv_of_pos _ (by norm_num)]
  rfl

/-- At or above T_HI the value is the last entry. -/
theorem ahInterpolate_top (lut : AhLut) (u : Nat) (h : 90000 ≤ u) : ahInterpolate lut u = lut[9].toNat := by
  unfold ahInterpolate
  rw [dif_neg]
  simp only [tStep]
  omega

/-- Every offset below T_HI lies in one segment. -/
theorem exists_segment (u : Nat) (h : u < 90000) : ∃ i rem, i < 9 ∧ rem < 10000 ∧ u = 10000 * i + rem :=
  ⟨u / 10000, u % 10000, by omega, by omega, by omega⟩

/-- An interpolated value is never negative, whatever the table. -/
theorem ahInterpolate_nonneg (lut : AhLut) (u : Nat) : 0 ≤ ahInterpolate lut u := by
  by_cases h : 90000 ≤ u
  · rw [ahInterpolate_top _ _ h]
    omega
  · obtain ⟨i, rem, hi, hr, rfl⟩ := exists_segment u (by omega)
    rw [ahInterpolate_segment lut i rem hi hr]
    have : -(lut[i].toNat : Int) * 10000 ≤ ((lut[i + 1].toNat : Int) - lut[i].toNat) * rem := by nlinarith
    omega

/-- Between two entries in order, an interpolated value does not pass the upper one. -/
theorem segment_le_upper (a b rem : Nat) (hab : a ≤ b) (hr : rem < 10000) :
    (a : Int) + ((b : Int) - a) * rem / 10000 ≤ b := by
  have : ((b : Int) - a) * rem ≤ ((b : Int) - a) * 10000 := by nlinarith
  omega

end Sys2Proof.Machine
end

