-- ==== Sys2Proof/Laws/Operands.lean ====
section
/-! SUPPORT. The operand layouts as numbers (30_encoding.md R82, R83). -/

namespace Sys2Proof.Machine

/-- A byte of a word, by division. -/
theorem extract_byte (w : Word) (lo : Nat) : w.extractLsb' lo 8 = BitVec.ofNat 8 (w.toNat / 2 ^ lo) := by
  apply BitVec.eq_of_toNat_eq
  simp [Nat.shiftRight_eq_div_pow]

theorem State.t16_eq (s : State) : s.t16 = ((s.opa.toNat % 65536 : Nat) : Int) := by
  simp [State.t16]

/-- Bits below `n` depend only on the value modulo `2 ^ n`. -/
theorem extract_of_mod_eq {a b : Word} {n lo len : Nat} (h : a.toNat % 2 ^ n = b.toNat % 2 ^ n) (hl : lo + len ≤ n) :
    a.extractLsb' lo len = b.extractLsb' lo len := by
  apply BitVec.eq_of_getLsbD_eq
  intro i hi
  have key (x : Word) : x.getLsbD (lo + i) = (x.toNat % 2 ^ n).testBit (lo + i) := by
    simp [BitVec.getLsbD, Nat.testBit_mod_two_pow, show lo + i < n by omega]
  simp only [BitVec.getLsbD_extractLsb', hi, decide_true, Bool.true_and, key, h]

/-- A packed half, as a number: the first wire byte is the upper one (R83). -/
theorem toNat_packHalf (p0 p1 p2 : Byte) :
    (packHalf p0 p1 p2).toNat = p0.toNat * 65536 + p1.toNat * 256 + p2.toNat := by
  have h0 := p0.isLt
  have h1 := p1.isLt
  have h2 := p2.isLt
  unfold packHalf
  rw [BitVec.toNat_setWidth, BitVec.toNat_append, BitVec.toNat_append, ← Nat.shiftLeft_add_eq_or_of_lt h1,
    ← Nat.shiftLeft_add_eq_or_of_lt h2, Nat.shiftLeft_eq, Nat.shiftLeft_eq]
  omega

end Sys2Proof.Machine
end

