-- ==== Sys2Proof/Laws/PerInstr.lean ====
section
/-! SUPPORT. Facts of every command as syntax, one lemma per constructor. -/

namespace Sys2Proof.Laws.EncodeReserved

/-- The command's word has RSV 0 and its own opcode in OP (30_encoding.md R80, R84), and the command is well formed (R81). -/
def Statement (i : Instr) : Prop :=
  rsvField (encode i) = 0#24 ∧ opField (encode i) = i.opcode ∧ i.wellFormed = true

theorem nop : Statement .nop := by unfold Statement; decide
theorem srst : Statement .srst := by unfold Statement; decide
theorem crcInit : Statement .crcInit := by unfold Statement; decide
theorem crcByte : Statement .crcByte := by unfold Statement; decide
theorem crcWord : Statement .crcWord := by unfold Statement; decide
theorem crcChkacc : Statement .crcChkacc := by unfold Statement; decide
theorem crcGen16 : Statement .crcGen16 := by unfold Statement; decide
theorem crcChk16 : Statement .crcChk16 := by unfold Statement; decide
theorem convT : Statement .convT := by unfold Statement; decide
theorem convRh : Statement .convRh := by unfold Statement; decide
theorem convRh4 : Statement .convRh4 := by unfold Statement; decide
theorem convT2tick : Statement .convT2tick := by unfold Statement; decide
theorem convRh2tick : Statement .convRh2tick := by unfold Statement; decide
theorem convAh : Statement .convAh := by unfold Statement; decide
theorem convC2f : Statement .convC2f := by unfold Statement; decide
theorem convF2c : Statement .convF2c := by unfold Statement; decide

end Sys2Proof.Laws.EncodeReserved
end

