-- ==== Sys2Proof/Laws/Run.lean ====
section
/-! SUPPORT. Runs over a list of pending events. -/

namespace Sys2Proof.Machine

/-- A run over a pending list serves its head and runs over its tail. -/
theorem runSteps_cons {e : BusEvent} {s t : State} (h : serve e s = .next t) (n : Nat) (rest : List BusEvent) :
    runSteps (n + 1) { s with pending := e :: rest } = runSteps n { t with pending := rest } := by
  obtain ⟨rs, _, hr, hs⟩ := serve_hostSide h
  rw [runSteps, step_of_cons (s := { s with pending := e :: rest }) rfl]
  simp only [hs rest s.responses, ← hr]

end Sys2Proof.Machine
end

