-- ==== Sys2Proof/Tests/Slice0.lean ====
section
/-! SUPPORT. Tests. Expected values are the spec's: the rules' examples and 95_test_vectors.md (S, K, Y, A, M numbers). `table42`
is the instance of 10_state.md R42, which is not the hardware's ROM. The `witness_` theorems show, for each statement with
hypotheses, values that meet them all, at the boundaries of its clauses. -/

namespace Sys2Proof.Tests
open Sys2Proof.Machine

/-- The instance of R42. -/
def table42 : AhLut := #v[1078, 2364, 4849, 9383, 17243, 30264, 50983, 82785, 130048, 198277]

/-- The reset state with the instance of R42 in the ROM and two operands. -/
def st (a b : Word) : State :=
  { opa := a, opb := b, res := 0, acc := 0xFF, err := 0, ahLut := table42, draws := 0, pending := [], responses := [] }

/-- The state a command answers with. -/
def after (i : Instr) (s : State) : Option State :=
  match exec i s with
  | .next t => some t
  | .fault _ => none
  | .refused _ => none

/-- The state after one step on one event. -/
def served (e : BusEvent) (s : State) : Option State :=
  match step { s with pending := [e] } with
  | .next t => some t
  | .fault _ => none
  | .refused _ => none

/-- An aligned 4-byte read, and write, at an offset. -/
def rd (off : Offset) : BusEvent := .read (.window off) (.single 4)
def wr (off : Offset) (v : Word) : BusEvent := .write (.window off) (.single 4) v

/-! ### Well-formedness: each check refuses an ill-formed term -/

theorem smoke_rsv_nonzero_refused : legalWord 0x00000120#32 = false := by decide
theorem smoke_unassigned_refused : legalWord 0x00000016#32 = false ∧ legalWord 0x00000042#32 = false := by decide
theorem smoke_legal_accepted : legalWord 0x00000015#32 = true := by decide
theorem smoke_table_not_monotonic_refused :
    ¬AhLut.Ok #v[1078, 2364, 4849, 9383, 17243, 30264, 50983, 82785, 198277, 130048] := by decide
theorem smoke_table_over_bound_refused :
    ¬AhLut.Ok #v[1078, 2364, 4849, 9383, 17243, 30264, 50983, 82785, 130048, 429497] := by decide
theorem smoke_table42_accepted : table42.Ok := by decide

/-! ### Decoding: every command's word, written out from R84 -/

theorem decode_nop : decode 0b00000000000000000000000000000000#32 = .ok .nop := by decide
theorem decode_srst : decode 0b00000000000000000000000000000001#32 = .ok .srst := by decide
theorem decode_crcInit : decode 0b00000000000000000000000000010000#32 = .ok .crcInit := by decide
theorem decode_crcByte : decode 0b00000000000000000000000000010001#32 = .ok .crcByte := by decide
theorem decode_crcWord : decode 0b00000000000000000000000000010010#32 = .ok .crcWord := by decide
theorem decode_crcChkacc : decode 0b00000000000000000000000000010011#32 = .ok .crcChkacc := by decide
theorem decode_crcGen16 : decode 0b00000000000000000000000000010100#32 = .ok .crcGen16 := by decide
theorem decode_crcChk16 : decode 0b00000000000000000000000000010101#32 = .ok .crcChk16 := by decide
theorem decode_convT : decode 0b00000000000000000000000000100000#32 = .ok .convT := by decide
theorem decode_convRh : decode 0b00000000000000000000000000100001#32 = .ok .convRh := by decide
theorem decode_convRh4 : decode 0b00000000000000000000000000100010#32 = .ok .convRh4 := by decide
theorem decode_convT2tick : decode 0b00000000000000000000000000100011#32 = .ok .convT2tick := by decide
theorem decode_convRh2tick : decode 0b00000000000000000000000000100100#32 = .ok .convRh2tick := by decide
theorem decode_convAh : decode 0b00000000000000000000000000110000#32 = .ok .convAh := by decide
theorem decode_convC2f : decode 0b00000000000000000000000001000000#32 = .ok .convC2f := by decide
theorem decode_convF2c : decode 0b00000000000000000000000001000001#32 = .ok .convF2c := by decide
/-- Y5: the ends of the unassigned ranges; Y7: SRST with RSV not 0. -/
theorem decode_illegal : [0x02#32, 0x0F#32, 0x16#32, 0x1F#32, 0x25#32, 0x2F#32, 0x31#32, 0x3F#32, 0x42#32, 0xFF#32,
    0x80000001#32].all (fun w => (decode w).toOption.isNone) = true := by decide +kernel
theorem decodeTableWord_convAh : decodeTableWord 32 0x30 = some .convAh ∧ decodeTableWord 32 0x130 = none := by decide

/-! ### System commands -/

theorem test_nop_clears_err : (after .nop { st 5 6 with err := 1 }).map (fun t => (t.err, t.opa)) = some (0, 5) := by decide
/-- Y2. -/
theorem test_srst_resets :
    after .srst { st 0x11 0x22 with res := 0x33, acc := 0x44, err := 2 } = some (st 0 0) := by decide

/-! ### Checksum commands -/

/-- K2. -/
theorem test_crcInit : (after .crcInit { st 0 0 with acc := 0x3A, err := 1 }).map (fun t => (t.acc, t.err)) = some (0xFF, 0) := by
  decide
/-- K3, K4: OPA[31:8] ignored. -/
theorem test_crcByte : (after .crcByte (st 0xBE 0)).map (·.acc) = some 0x0C ∧
    (after .crcByte (st 0xFFFFFF00 0)).map (·.acc) = some 0xAC := by decide
/-- K7: MSB first, OPA[31:16] ignored. -/
theorem test_crcWord : (after .crcWord (st 0xABCDBEEF 0)).map (·.acc) = some 0x92 := by decide +kernel
/-- K9, K10. -/
theorem test_crcChkacc : (after .crcChkacc { st 0x92 0 with acc := 0x92 }).map (·.err) = some 0 ∧
    (after .crcChkacc { st 0x93 0 with acc := 0x92 }).map (fun t => (t.err, t.acc)) = some (1, 0x92) := by decide
/-- K13: CRC.acc untouched. -/
theorem test_crcGen16 : (after .crcGen16 { st 0xBEEF 0 with acc := 0x55 }).map (fun t => (t.res, t.acc)) = some (0x92, 0x55) := by
  decide +kernel
/-- K24, K18: RES kept on a mismatch. -/
theorem test_crcChk16 : (after .crcChk16 { st 0x00BEEF92 0 with err := 1 }).map (fun t => (t.res, t.err)) = some (0xBEEF, 0) ∧
    (after .crcChk16 { st 0x00BEEF93 0 with res := 0x12345678 }).map (fun t => (t.res, t.err)) = some (0x12345678, 1) := by decide +kernel
/-- K19: OPA[31:24] ignored. -/
theorem test_crcChk16_ignores_top : (after .crcChk16 (st 0xFF000081 0)).map (fun t => (t.res, t.err)) = some (0, 0) := by decide +kernel
/-- L2: the check string "123456789". The proof goes byte by byte. -/
theorem test_crc8_check_string :
    crc8 0xFF [0x31, 0x32, 0x33, 0x34, 0x35, 0x36, 0x37, 0x38, 0x39] = 0xF7 ∧ crc8 0xFF [] = 0xFF := by
  simp only [crc8_cons, crc8_nil,
    show crc8Byte 0xFF 0x31 = 0x58 from by decide, show crc8Byte 0x58 0x32 = 0x60 from by decide,
    show crc8Byte 0x60 0x33 = 0x2D from by decide, show crc8Byte 0x2D 0x34 = 0xCB from by decide,
    show crc8Byte 0xCB 0x35 = 0x9D from by decide, show crc8Byte 0x9D 0x36 = 0x16 from by decide,
    show crc8Byte 0x16 0x37 = 0xB7 from by decide, show crc8Byte 0xB7 0x38 = 0x54 from by decide,
    show crc8Byte 0x54 0x39 = 0xF7 from by decide, and_self]

/-! ### Tick conversions -/

/-- S4 (129997, not 129998: C1), and OPA[31:16] ignored. -/
theorem test_convT : (after .convT (st 0xFFFF 0)).map (·.res) = some 0x0001FBCD ∧
    (after .convT (st 0xFFFF667D 0)).map (·.res) = some 0x000061E4 := by decide
theorem test_convT_negative : (after .convT (st 0x41D4 0)).map (·.res) = some 0xFFFFFFFF := by decide
theorem test_convRh : (after .convRh (st 0x5744 0)).map (·.res) = some 0x00008528 := by decide
/-- Unclamped below 0 and above 100000 (R137). -/
theorem test_convRh4 : (after .convRh4 (st 0 0)).map (·.res) = some 0xFFFFE890 ∧
    (after .convRh4 (st 0xD918 0)).map (·.res) = some 0x000186A2 := by decide
theorem test_convT2tick : (after .convT2tick (st 0xFFFF5038 0)).map (·.res) = some 0 ∧
    (after .convT2tick (st 0x0001FBD4 0)).map (·.res) = some 0x0000FFFF := by decide
/-- Outside the domain a draw is taken and ERR is 0. -/
theorem test_convT2tick_out : (after .convT2tick (st 0xFFFF5037 0)).map (fun t => (t.draws, t.err)) = some (1, 0) ∧
    (after .convT2tick (st 0x0001FBD5 0)).map (·.draws) = some 1 := by decide
theorem test_convRh2tick : (after .convRh2tick (st 0x000186A3 0)).map (·.res) = some 0x0000FFFF ∧
    (after .convRh2tick (st 2 0)).map (·.res) = some 1 := by decide
theorem test_convRh2tick_out : (after .convRh2tick (st 0xFFFFFFFF 0)).map (·.draws) = some 1 ∧
    (after .convRh2tick (st 0x000186A4 0)).map (·.draws) = some 1 := by decide

/-! ### Absolute humidity (LUT-dependent vectors, with the instance of R42) -/

theorem test_convAh : (after .convAh (st 0x000061E4 0x00008528)).map (·.res) = some 0x00001FB9 ∧
    (after .convAh (st 0x80000000 0x000186A0)).map (·.res) = some 0x00000430 ∧
    (after .convAh (st 0x7FFFFFFF 0x000186A0)).map (·.res) = some 0x00030680 ∧
    (after .convAh (st 0 0x80000000)).map (·.res) = some 0 := by decide
/-- The last product in the domain, and the first beyond it. -/
theorem test_convAh_domain : (after .convAh (st 0x00011170 0x0002A4EF)).map (fun t => (t.res, t.draws)) = some (0x00053E2B, 0) ∧
    (after .convAh (st 0x00011170 0x0002A4F0)).map (fun t => (t.draws, t.err)) = some (1, 0) := by decide

/-! ### Scaler -/

theorem test_convC2f : (after .convC2f (st 0xFFFFFFFE 0)).map (·.res) = some 0x00007CFD ∧
    (after .convC2f (st 0xFFFB8F48 0)).map (·.res) = some 0xFFF87EE8 := by decide
theorem test_convC2f_out : (after .convC2f (st 0x000470B9 0)).map (fun t => (t.draws, t.err)) = some (1, 0) := by decide
theorem test_convF2c : (after .convF2c (st 0 0)).map (·.res) = some 0xFFFFBA8F ∧
    (after .convF2c (st 0x00377738 0)).map (·.res) = some 0x001E8B02 := by decide
theorem test_convF2c_out : (after .convF2c (st 0x00377739 0)).map (fun t => (t.draws, t.err)) = some (1, 0) := by decide

/-! ### Bus accesses -/

/-- M1, M2: reads after reset. -/
theorem test_read_after_reset : (served (rd 0x04) (st 0 0)).map (·.responses) = some [.data 0] ∧
    (served (rd 0x14) (st 0 0)).map (·.responses) = some [.data 0xFF] := by decide
/-- M3. -/
theorem test_write_opa : served (wr 0x08 0xDEADBEEF) (st 0 0) = some { st 0xDEADBEEF 0 with responses := [.accepted] } := by decide
/-- M4, M5, M6: a refused access changes no register and is answered with a bus error. -/
theorem test_refused : ∀ e ∈ [rd 0x00, rd 0x18, rd 0x1C, wr 0x04 5, wr 0x10 5, wr 0x14 5, wr 0x18 5, wr 0x1C 5],
    (served e (st 1 2)).map (fun t => { t with responses := [] }) = some (st 1 2) := by decide
/-- M7, M8, and a burst: no command runs. -/
theorem test_wrong_size_or_alignment :
    served (.write (.window 0x00) (.single 1) 1) (st 1 2) =
      some { st 1 2 with responses := [.fault (.busError (.window 0x00))] } ∧
    served (.read (.window 0x09) (.single 4)) (st 1 2) =
      some { st 1 2 with responses := [.fault (.busError (.window 0x09))] } ∧
    served (.write (.window 0x08) (.burst 4) 1) (st 1 2) =
      some { st 1 2 with responses := [.fault (.busError (.window 0x08))] } := by decide
/-- Y8, Y6: a legal and an illegal word in CMD. -/
theorem test_command_write : (served (wr 0x00 0x20) (st 0x667D 0)).map (fun t => (t.res, t.err)) = some (0x61E4, 0) ∧
    (served (wr 0x00 0x120) (st 0x667D 0)).map (fun t => (t.res, t.err)) = some (0, 2) := by decide
theorem test_reset_input : served .reset { st 7 8 with acc := 1, err := 2, res := 9 } = some (st 0 0) := by decide
/-- The word placed for the next step runs, from State.reset itself. -/
theorem test_withFetchWord :
    (match step (State.reset.withFetchWord 32 0x22) with | .next t => t.res | _ => 0) = 0xFFFFE890 := by decide
/-- R91's example: `CONV CONV.T, 0x667D` is W 0x08 0x0000667D, then W 0x00 0x00000020. -/
theorem test_asm_conv : (Asm.conv .convT (.imm 0x667D)).map (Asm.Stmt.transaction []) =
    [some (wr 0x08 0x667D), some (wr 0x00 0x20)] := by decide

/-! ### Witnesses: the hypotheses of the statements are met -/

theorem witness_IllegalWordOnlySignals :
    [0x100#32, 0xFFFFFFFF#32, 0x02#32, 0x0F#32, 0x16#32, 0x1F#32, 0x25#32, 0x2F#32, 0x31#32, 0x3F#32, 0x42#32, 0xFF#32].all
      (fun w => 256 ≤ w.toNat ∨ (0x02 ≤ w.toNat ∧ w.toNat ≤ 0x0F) ∨ (0x16 ≤ w.toNat ∧ w.toNat ≤ 0x1F) ∨
      (0x25 ≤ w.toNat ∧ w.toNat ≤ 0x2F) ∨ (0x31 ≤ w.toNat ∧ w.toNat ≤ 0x3F) ∨ (0x42 ≤ w.toNat ∧ w.toNat ≤ 0xFF)) = true :=
  by decide +kernel

theorem witness_StepRunsTheDecodedCommand :
    (BusAddr.window 0x00).toNat = Config.unitBase ∧
    ({ st 0 0 with pending := [wr 0x00 0x20] }).pending = .write (.window 0x00) (.single 4) 0x20 :: [] ∧
    decode 0x20#32 = .ok .convT := ⟨rfl, rfl, by decide⟩

/-- Offsets 0 and 31, both spellings of an address, a read and a write pending, each accepting clause and each refusing one. -/
theorem witness_HostAccessFollowsTheAccessFunction :
    (0 < 32 ∧ 31 < 32) ∧ (BusAddr.window 0x00).toNat = Config.unitBase + 0 ∧ (BusAddr.window 0x1F).toNat = Config.unitBase + 31 ∧
    (BusAddr.bus (Config.unitBase + 31)).toNat = Config.unitBase + 31 ∧
    ({ st 0 0 with pending := [rd 0x14] }).pending = .read (.window 0x14) (.single 4) :: [] ∧
    ({ st 0 0 with pending := [wr 0x0C 1] }).pending = .write (.window 0x0C) (.single 4) 1 :: [] ∧
    (BusSize.burst 4 ≠ .single 4 ∧ BusSize.single 8 ≠ .single 4 ∧ 0x1F % 4 ≠ 0 ∧ 0x01 % 4 ≠ 0) :=
  ⟨by decide, rfl, rfl, rfl, rfl, rfl, by decide⟩

/-- The first address above the window; one below it where UNIT_BASE leaves one. -/
theorem witness_AccessOutsideTheWindowIsNotSeen :
    Config.unitBase + 32 ≤ (BusAddr.bus (Config.unitBase + 32)).toNat ∧
    (0 < Config.unitBase → (BusAddr.bus (Config.unitBase - 1)).toNat < Config.unitBase) ∧
    ({ st 0 0 with pending := [.read (.bus (Config.unitBase + 32)) (.single 4)] }).pending =
      .read (.bus (Config.unitBase + 32)) (.single 4) :: [] ∧
    ({ st 0 0 with pending := [.write (.bus (Config.unitBase + 32)) (.single 4) 1] }).pending =
      .write (.bus (Config.unitBase + 32)) (.single 4) 1 :: [] :=
  ⟨Nat.le_refl _, fun h => Nat.sub_lt h Nat.one_pos, rfl, rfl⟩

theorem witness_StepWithNothingPendingChangesNothing : (st 0 0).pending = [] := rfl

theorem witness_ReadingAgentDisturbsNothing :
    Interleaves [wr 0x08 1, wr 0x00 0x20] [rd 0x04] [wr 0x08 1, rd 0x04, wr 0x00 0x20] ∧
    ∀ e ∈ [rd 0x04], ∃ a n, e = .read a n :=
  ⟨.left _ (.right _ (.left _ .nil)), by intro e he; rw [List.mem_singleton.mp he]; exact ⟨_, _, rfl⟩⟩

theorem witness_PermittedAccessesGetNoBusError :
    ∀ e ∈ ({ st 0 0 with pending := [.reset, rd 0x04, rd 0x08, rd 0x0C, rd 0x10, rd 0x14, wr 0x00 0x102, wr 0x08 1, wr 0x0C 1] }).pending,
      e.permitted = true := by decide

theorem witness_ResetInputHasTheEffectOfSrst : ({ st 7 8 with pending := [.reset] }).pending = .reset :: [] := rfl

/-- ERR at its largest produced value, and a step that produces it. -/
theorem witness_EveryStepKeepsTheInvariant :
    ({ st 0 0 with err := 2, pending := [wr 0x00 0x02] }).Inv ∧
    step { st 0 0 with err := 2, pending := [wr 0x00 0x02] } = .next { st 0 0 with err := 2, responses := [.accepted] } :=
  ⟨⟨by decide, by decide⟩, rfl⟩

theorem witness_RomNeverChanges :
    step { st 7 8 with pending := [.reset] } = .next (st 0 0) ∧
    step { st 7 8 with pending := [wr 0x00 0x01] } = .next { st 0 0 with responses := [.accepted] } := ⟨rfl, rfl⟩

/-- Each clause of the frame: a command under it and, for the ERR clause, a failing check. -/
theorem witness_CommandsWriteOnlyTheirRegisters :
    after .crcChk16 (st 0x00BEEF93 0) = some { st 0x00BEEF93 0 with err := 1 } ∧ (1#4 ≠ 0#4) ∧ Instr.crcChk16 ≠ .srst ∧
    Instr.crcChk16 ∉ [.srst, .crcInit, .crcByte, .crcWord] ∧
    Instr.nop ∈ [Instr.nop, .crcInit, .crcByte, .crcWord, .crcChkacc] ∧
    Instr.crcChk16 ∉ [.convT2tick, .convRh2tick, .convAh, .convC2f, .convF2c] :=
  ⟨by decide +kernel, by decide, by decide, by decide, by decide, by decide⟩

/-- Two states that agree on what commands read and differ in RES, ERR and the host's side. -/
theorem witness_CommandsReadOnlyTheNamedState :
    let s := st 5 6
    let s' := { st 5 6 with res := 9, err := 2, pending := [.reset] }
    s ≠ s' ∧ s'.opa = s.opa ∧ s'.opb = s.opb ∧ s'.acc = s.acc ∧ s'.ahLut = s.ahLut ∧ s'.draws = s.draws := by decide

theorem witness_IgnoredOperandBitsDoNotMatter :
    (0xFFFF667D#32).toNat % 2 ^ (layoutOf .convT).opaBits = (st 0x667D 0).opa.toNat % 2 ^ (layoutOf .convT).opaBits ∧
    (0x1#32).toNat % 2 ^ (layoutOf .convT).opbBits = (st 0x667D 0).opb.toNat % 2 ^ (layoutOf .convT).opbBits := by decide

/-- The same for commands of an S32 layout outside their domain, OPB changed alone, and for CRC.CHK16, OPA[31:24] changed. -/
theorem witness_IgnoredOperandBitsDoNotMatter_draws :
    [Instr.convT2tick, .convRh2tick, .convC2f, .convF2c].all (fun i =>
      (0x80000000#32).toNat % 2 ^ (layoutOf i).opaBits = (st 0x80000000 0).opa.toNat % 2 ^ (layoutOf i).opaBits ∧
      (0x1#32).toNat % 2 ^ (layoutOf i).opbBits = (st 0x80000000 0).opb.toNat % 2 ^ (layoutOf i).opbBits) = true ∧
    (0xFFBEEF92#32).toNat % 2 ^ (layoutOf .crcChk16).opaBits = (st 0x00BEEF92 0).opa.toNat % 2 ^ (layoutOf .crcChk16).opaBits := by
  decide +kernel

theorem witness_ConversionsNeverSignalAnError :
    Instr.convAh ∈ [Instr.convT, .convRh, .convRh4, .convT2tick, .convRh2tick, .convAh, .convC2f, .convF2c] := by decide

theorem witness_SrstGivesTheResetState :
    (BusAddr.window 0x00).toNat = Config.unitBase ∧
    ({ st 7 8 with pending := [wr 0x00 0x01] }).pending = .write (.window 0x00) (.single 4) 0x00000001#32 :: [] := ⟨rfl, rfl⟩

theorem witness_CrcChkaccComparesTheAccumulator :
    ({ st 0x192 0 with acc := 0x92 }).acc.toNat = (st 0x192 0).opa.toNat % 256 ∧
    ({ st 0x93 0 with acc := 0x92 }).acc.toNat ≠ (st 0x93 0).opa.toNat % 256 := by decide

theorem witness_CrcChk16ChecksAPayloadHalf :
    (crc8 0xFF#8 [BitVec.ofNat 8 ((st 0x00BEEF92 0).opa.toNat / 65536), BitVec.ofNat 8 ((st 0x00BEEF92 0).opa.toNat / 256)]).toNat
      = (st 0x00BEEF92 0).opa.toNat % 256 ∧
    (crc8 0xFF#8 [BitVec.ofNat 8 ((st 0x00667DA2 0).opa.toNat / 65536), BitVec.ofNat 8 ((st 0x00667DA2 0).opa.toNat / 256)]).toNat
      ≠ (st 0x00667DA2 0).opa.toNat % 256 := by decide +kernel

theorem witness_OneCorruptedByteIsAlwaysDetected :
    after .crcChk16 (st 0x00BEEF92 0) = some { st 0x00BEEF92 0 with res := 0xBEEF } ∧
    ({ st 0x00BEEF92 0 with res := 0xBEEF }).err = 0#4 ∧ 0x80#8 ≠ 0#8 ∧ 0 < 3 ∧ 2 < 3 :=
  ⟨by decide +kernel, by decide⟩

theorem witness_ForwardConversionsIncreaseOverTheirRange :
    (Instr.convRh4, (-6000 : Int), (118998 : Int), (1 : Int)) ∈ [(Instr.convT, (-45000 : Int), (129997 : Int), (2 : Int)),
      (.convRh, 0, 99998, 1), (.convRh4, -6000, 118998, 1)] ∧ 0 < 65536 ∧ 65535 < 65536 ∧ 65534 < 65535 := by decide

/-- The ends of the domain, and the first values beyond them. -/
theorem witness_ConvT2tickInvertsInItsDomain :
    [0xFFFF5038#32, 0x0001FBD4#32].all (fun a =>
      0 ≤ (st a 0).opa.toInt * 12271 + 552195000 ∧ (st a 0).opa.toInt * 12271 + 552195000 ≤ 2147483647) = true ∧
    [0xFFFF5037#32, 0x0001FBD5#32].all (fun a =>
      ¬(0 ≤ (st a 0).opa.toInt * 12271 + 552195000 ∧ (st a 0).opa.toInt * 12271 + 552195000 ≤ 2147483647)) = true := by decide +kernel

theorem witness_ConvRh2tickInvertsInItsDomain :
    [0#32, 0x000186A3#32].all
      (fun a => 0 ≤ (st a 0).opa.toInt * 21474 ∧ (st a 0).opa.toInt * 21474 ≤ 2147483647) = true ∧
    [0xFFFFFFFF#32, 0x000186A4#32].all
      (fun a => ¬(0 ≤ (st a 0).opa.toInt * 21474 ∧ (st a 0).opa.toInt * 21474 ≤ 2147483647)) = true := by decide +kernel

theorem witness_RoundTripErrorsAreBounded :
    (∀ t ∈ [(-45000 : Int), 25000, 113785, 130004], -45000 ≤ t ∧ t ≤ 130004) ∧
    (∀ h ∈ [(0 : Int), 89362, 100003], 0 ≤ h ∧ h ≤ 100003) ∧ (∀ k ∈ [0, 65535], k < 65536) := by decide

theorem witness_InverseConversionsAreMonotone :
    (-45000 ≤ (0xFFFF5038#32).toInt ∧ (0xFFFF5038#32).toInt ≤ (0x0001FBD4#32).toInt ∧ (0x0001FBD4#32).toInt ≤ 130004) ∧
    (0 ≤ (0#32).toInt ∧ (0#32).toInt ≤ (0x000186A3#32).toInt ∧ (0x000186A3#32).toInt ≤ 100003) := by decide

/-- A humidity of 0, 1 and -2^31; one temperature under each clause (T_LO, T_HI, the first and last of segment 8); a product on each
side of 2^32 - 1. -/
theorem witness_ConvAhInterpolatesAndScales :
    ((st 20000 0).opb.toInt ≤ 0 ∧ (st 20000 0x80000000).opb.toInt ≤ 0 ∧ 0 < (st 0xFFFFB1E0 1).opb.toInt) ∧
    ((st 0xFFFFB1E0 1).opa.toInt ≤ -20000 ∧ (1078 : Int) = (st 0xFFFFB1E0 1).ahLut[0].toNat) ∧
    (70000 ≤ (st 70000 1).opa.toInt ∧ (198277 : Int) = (st 70000 1).ahLut[9].toNat) ∧
    (-20000 + 10000 * 8 ≤ (st 60000 1).opa.toInt ∧ (st 69999 1).opa.toInt < -10000 + 10000 * 8) ∧
    (198277 / 8 * (st 70000 173295).opb.toInt ≤ 4294967295 ∧ 4294967295 < 198277 / 8 * (st 70000 173296).opb.toInt) := by decide

theorem witness_ConvAhIsExactUpTo80Percent :
    (st 70000 80000).ahLut.Ok ∧ 0 < (st 70000 1).opb.toInt ∧ (st 70000 80000).opb.toInt ≤ 80000 := by decide

theorem witness_ConvAhIsMonotone :
    (st 0 0).ahLut.Ok ∧ (0x80000000#32).toInt ≤ (70000#32).toInt ∧ (0x80000000#32).toInt ≤ (173295#32).toInt ∧
    ahProduct (st 0 0).ahLut (70000#32).toInt (173295#32).toInt ≤ 4294967295 := by decide

theorem witness_ConvAhBoundaryLaws :
    ahProduct (st 70000 173295).ahLut (st 70000 173295).opa.toInt (st 70000 173295).opb.toInt ≤ 4294967295 ∧
    ((0x80000000#32).toInt ≤ -20000 ∧ (0xFFFFB1E0#32).toInt ≤ -20000) ∧ (70000 ≤ (70000#32).toInt ∧ 70000 ≤ (0x7FFFFFFF#32).toInt) ∧
    (st 70000 100000).ahLut.Ok ∧ (st 70000 100000).opa.toInt = -20000 + 10000 * (((9 : Fin 10).val : Nat) : Int) ∧
    (st 70000 100000).opb.toInt = 100000 ∧ (st 70000 12500).opb.toInt = 12500 ∧
    (st 70000 100000).ahLut[(9 : Fin 10).val].toNat / 8 * 100000 ≤ 4294967295 := by decide

theorem witness_ConvC2fScalesInItsRange :
    (0 ≤ (st 0 0).opa.toInt ∧ (st 291000 0).opa.toInt ≤ 291000) ∧
    (-291000 ≤ (st 0xFFFB8F48 0).opa.toInt ∧ (st 0xFFFFFFFF 0).opa.toInt < 0) ∧
    ((st 0xFFFB8F47 0).opa.toInt < -291000 ∧ 291000 < (st 291001 0).opa.toInt) := by decide

theorem witness_ConvF2cScalesInItsRange :
    (32000 ≤ (st 32000 0).opa.toInt ∧ (st 3635000 0).opa.toInt ≤ 3635000) ∧
    (-3571000 ≤ (st 0xFFC982C8 0).opa.toInt ∧ (st 31999 0).opa.toInt < 32000) ∧
    ((st 0xFFC982C7 0).opa.toInt < -3571000 ∧ 3635000 < (st 3635001 0).opa.toInt) := by decide

theorem witness_ScalerRoundTripsAndOrder :
    (∀ c ∈ [(-291000 : Int), -40000, 291000], -291000 ≤ c ∧ c ≤ 291000) ∧
    (∀ f ∈ [(-491801 : Int), 555801], -491801 ≤ f ∧ f ≤ 555801) ∧
    (∀ f ∈ [(-3571000 : Int), -40000, 3635000], -3571000 ≤ f ∧ f ≤ 3635000) := by decide

end Sys2Proof.Tests
end

section
/-! The checksum commands (41_checksum.md R100 to R110): the meaning of each on the registers' numbers, and the proofs of the
statements about them. -/

namespace Sys2Proof.Machine

/-! ### The operand fields as numbers -/

theorem extract_lowByte (w : Word) : w.extractLsb' 0 8 = BitVec.ofNat 8 w.toNat := by
  rw [extract_byte, Nat.pow_zero, Nat.div_one]

theorem extract_secondByte (w : Word) : w.extractLsb' 8 8 = BitVec.ofNat 8 (w.toNat / 256) := extract_byte w 8

theorem extract_thirdByte (w : Word) : w.extractLsb' 16 8 = BitVec.ofNat 8 (w.toNat / 65536) := extract_byte w 16

/-- A byte is the field [7:0] exactly when it is the word modulo 256. -/
theorem eq_lowByte_iff (c : Byte) (w : Word) : c = w.extractLsb' 0 8 ↔ c.toNat = w.toNat % 256 := by
  rw [extract_lowByte, ← BitVec.toNat_inj, BitVec.toNat_ofNat]

/-- The word {msb, lsb} of layout W24C, zero-extended, by division. -/
theorem State.w24cWord_zext (s : State) : s.w24cWord.setWidth 32 = BitVec.ofNat 32 (s.opa.toNat / 256 % 65536) := by
  rw [← BitVec.ofNat_toNat, BitVec.extractLsb'_toNat, Nat.shiftRight_eq_div_pow]

/-- A byte put into a word of its own is that word's byte [7:0]. -/
theorem lowByte_of_mod (n : Nat) : BitVec.ofNat 8 (BitVec.ofNat 32 (n % 256)).toNat = BitVec.ofNat 8 n := by
  apply BitVec.eq_of_toNat_eq
  simp only [BitVec.toNat_ofNat]
  omega

/-! ### The rounds and the residue -/

/-- A round in arithmetic: doubling drops the top bit, which is the one that calls for the polynomial. -/
theorem crcRound_eq_double : crcRound = fun c => if 128 ≤ c.toNat then BitVec.ofNat 8 (2 * c.toNat) ^^^ 0x31#8
    else BitVec.ofNat 8 (2 * c.toNat) := by
  funext c
  have top : c.getLsbD 7 = decide (128 ≤ c.toNat) := BitVec.getLsbD_last c
  have double : c <<< 1 = BitVec.ofNat 8 (2 * c.toNat) := by
    apply BitVec.eq_of_toNat_eq
    rw [BitVec.toNat_shiftLeft, BitVec.toNat_ofNat, Nat.shiftLeft_eq, Nat.mul_comm]
  simp only [crcRound, top, double, decide_eq_true_eq]

theorem crcRounds_eq_iterate (n : Nat) (c : Byte) : crcRounds n c = crcRound^[n] c := by
  induction n generalizing c with
  | zero => rfl
  | succ n ih => exact ih (crcRound c)

/-- A byte fed into an accumulator that holds it cancels, and the rounds keep 0. -/
theorem crc8Byte_self (c : Byte) : crc8Byte c c = 0#8 := by
  rw [crc8Byte, BitVec.xor_self, crcRounds_zero]

/-! ### The commands' meanings -/

theorem exec_crcByte (s : State) :
    exec .crcByte s = .next { s with acc := crc8Byte s.acc (BitVec.ofNat 8 s.opa.toNat), err := 0#4 } := by
  rw [← extract_lowByte]
  rfl

theorem exec_crcWord (s : State) : exec .crcWord s = .next
    { s with acc := crc8Byte (crc8Byte s.acc (BitVec.ofNat 8 (s.opa.toNat / 256))) (BitVec.ofNat 8 s.opa.toNat),
             err := 0#4 } := by
  rw [← extract_lowByte, ← extract_secondByte]
  rfl

theorem exec_crcChkacc (s : State) : exec .crcChkacc s =
    if s.acc.toNat = s.opa.toNat % 256 then .next { s with err := 0#4 } else .next { s with err := 1#4 } := by
  simp only [← eq_lowByte_iff]
  rfl

theorem exec_crcGen16 (s : State) : exec .crcGen16 s = .next
    { s with res := BitVec.ofNat 32
               (crc8 0xFF#8 [BitVec.ofNat 8 (s.opa.toNat / 256), BitVec.ofNat 8 s.opa.toNat]).toNat,
             err := 0#4 } := by
  rw [BitVec.ofNat_toNat, ← extract_lowByte, ← extract_secondByte]
  rfl

theorem exec_crcChk16 (s : State) : exec .crcChk16 s =
    if (crc8 0xFF#8 [BitVec.ofNat 8 (s.opa.toNat / 65536), BitVec.ofNat 8 (s.opa.toNat / 256)]).toNat = s.opa.toNat % 256
    then .next { s with res := BitVec.ofNat 32 (s.opa.toNat / 256 % 65536), err := 0#4 }
    else .next { s with err := 1#4 } := by
  simp only [← eq_lowByte_iff, ← extract_secondByte, ← extract_thirdByte, ← State.w24cWord_zext]
  rfl

/-! ### The statements -/

/-- Settles O27: the model's rounds are the iterate of one round, and one round is the arithmetic of R100. -/
theorem crcByteRunsEightRounds : Obligations.CrcByteRunsEightRounds := by
  refine ⟨by decide, fun s => ?_⟩
  rw [exec_crcByte, crc8Byte, crcRounds_eq_iterate, crcRound_eq_double]

/-- Settles O28: each CRC.BYTE finds its byte in an OPA of its own, and CRC.WORD feeds the same two bytes in the same order. -/
theorem crcWordIsTwoCrcBytes : Obligations.CrcWordIsTwoCrcBytes := by
  refine ⟨by decide, fun s => ⟨_, _, exec_crcByte _, exec_crcByte _, ?_, ?_⟩⟩
  · rw [exec_crcWord]
    simp only [lowByte_of_mod]
  · simp only [lowByte_of_mod]

/-- Settles O29: both clauses are branches of the one comparison, of numbers below 256. -/
theorem crcChkaccComparesTheAccumulator : Obligations.CrcChkaccComparesTheAccumulator :=
  ⟨by decide, fun s =>
    ⟨fun hmatch => (exec_crcChkacc s).trans (if_pos hmatch), fun hmismatch => (exec_crcChkacc s).trans (if_neg hmismatch)⟩⟩

/-- Settles O30: the meaning of CRC.GEN16 on the numbers of OPA[15:8] and OPA[7:0]. -/
theorem crcGen16WritesTheChecksum : Obligations.CrcGen16WritesTheChecksum :=
  ⟨by decide, exec_crcGen16⟩

/-- Settles O31: both clauses are branches of the one comparison with OPA[7:0]. -/
theorem crcChk16ChecksAPayloadHalf : Obligations.CrcChk16ChecksAPayloadHalf :=
  ⟨by decide, fun s =>
    ⟨fun hmatch => (exec_crcChk16 s).trans (if_pos hmatch), fun hmismatch => (exec_crcChk16 s).trans (if_neg hmismatch)⟩⟩

/-- Settles O26: the record CRC.INIT answers is the stated one by computation. -/
theorem crcInitSetsTheAccumulator : Obligations.CrcInitSetsTheAccumulator :=
  ⟨by decide, fun _ => rfl⟩

/-- Settles O32: the last byte fed is the value the accumulator holds by then. -/
theorem checksumResidueIsZero : Obligations.ChecksumResidueIsZero := by
  intro bs
  rw [crc8_append, crc8_cons, crc8_nil, crc8Byte_self]

end Sys2Proof.Machine
end

section
/-! The tick conversions (42_tick_conversion.md R130 to R144): the meaning of each on the registers' numbers, and the proofs of
the statements about them. The three forward conversions are one affine map of the tick and the two inverses one affine map of
the reading, so what their statements share is proved once, over the slope and the offset, or over the 32-bit expression. -/

namespace Sys2Proof.Machine

/-! ### The forward conversions -/

/-- The reading at tick `k`: R131, R133 and R135 differ in the slope and the offset only. -/
def tickReading (slope : Nat) (offset : Int) (k : Nat) : Int := ((slope * k / 8192 : Nat) : Int) - offset

/-- What a forward conversion answers: the reading at the tick OPA[15:0] in RES, and OK. -/
def forwardOutcome (slope : Nat) (offset : Int) (s : State) : Host.Outcome State Fault Refusal :=
  .next { s with res := BitVec.ofInt 32 (tickReading slope offset (s.opa.toNat % 65536)), err := 0#4 }

/-- The model's shift of the scaled tick, as a division of natural numbers. -/
theorem shr_scaledTick (slope : Nat) (s : State) :
    shr (slope * s.t16) tickShift = ((slope * (s.opa.toNat % 65536) / 8192 : Nat) : Int) := by
  rw [shr_eq, State.t16_eq]
  norm_cast

theorem exec_convT (s : State) : exec .convT s = forwardOutcome 21875 45000 s := by
  rw [forwardOutcome, tickReading, ← shr_scaledTick]
  rfl

theorem exec_convRh (s : State) : exec .convRh s = forwardOutcome 12500 0 s := by
  rw [forwardOutcome, tickReading, ← shr_scaledTick, sub_zero]
  rfl

theorem exec_convRh4 (s : State) : exec .convRh4 s = forwardOutcome 15625 6000 s := by
  rw [forwardOutcome, tickReading, ← shr_scaledTick]
  rfl

theorem tickReading_mono (slope : Nat) (offset : Int) {k l : Nat} (h : k ≤ l) :
    tickReading slope offset k ≤ tickReading slope offset l := by
  have : slope * k / 8192 ≤ slope * l / 8192 := by gcongr
  unfold tickReading
  omega

/-- A slope between `d` and `d + 1` per tick moves the reading by one of the two. -/
theorem tickReading_succ (slope d : Nat) (offset : Int) (k : Nat) (hd : 8192 * d ≤ slope) (hd' : slope ≤ 8192 * (d + 1)) :
    tickReading slope offset (k + 1) = tickReading slope offset k + d ∨
      tickReading slope offset (k + 1) = tickReading slope offset k + d + 1 := by
  unfold tickReading
  rw [Nat.mul_succ]
  omega

/-- Where the readings at both ends fit in 32 bits, RES holds the reading itself. -/
theorem forwardOutcome_reads {slope : Nat} {offset : Int} (hlo : -2147483648 ≤ tickReading slope offset 0)
    (hhi : tickReading slope offset 65535 ≤ 2147483647) (s : State) (k : Nat) (hk : k < 65536) (hopa : s.opa.toNat = k) :
    ∃ t, forwardOutcome slope offset s = .next t ∧ t.res.toInt = tickReading slope offset k := by
  refine ⟨_, rfl, ?_⟩
  rw [hopa, Nat.mod_eq_of_lt hk]
  exact toInt_bits32 (hlo.trans (tickReading_mono _ _ (Nat.zero_le _)))
    ((tickReading_mono _ _ (Nat.le_of_lt_succ hk)).trans hhi)

theorem convT_reads (s : State) (k : Nat) (hk : k < 65536) (hopa : s.opa.toNat = k) :
    ∃ t, exec .convT s = .next t ∧ t.res.toInt = tickReading 21875 45000 k :=
  exec_convT s ▸ forwardOutcome_reads (by decide) (by decide) s k hk hopa

theorem convRh_reads (s : State) (k : Nat) (hk : k < 65536) (hopa : s.opa.toNat = k) :
    ∃ t, exec .convRh s = .next t ∧ t.res.toInt = tickReading 12500 0 k :=
  exec_convRh s ▸ forwardOutcome_reads (by decide) (by decide) s k hk hopa

theorem convRh4_reads (s : State) (k : Nat) (hk : k < 65536) (hopa : s.opa.toNat = k) :
    ∃ t, exec .convRh4 s = .next t ∧ t.res.toInt = tickReading 15625 6000 k :=
  exec_convRh4 s ▸ forwardOutcome_reads (by decide) (by decide) s k hk hopa

/-- The host's tick stands in OPA as itself. -/
theorem toNat_tick {k : Nat} (hk : k < 65536) : (BitVec.ofNat 32 k).toNat = k := by
  rw [BitVec.toNat_ofNat]
  omega

/-- What R132, R134 and R136 say of one conversion, from its reading at every tick. -/
theorem increases_of_reads {i : Instr} {slope d : Nat} {offset : Int}
    (hreads : ∀ (s : State) (k : Nat), k < 65536 → s.opa.toNat = k →
      ∃ t, exec i s = .next t ∧ t.res.toInt = tickReading slope offset k)
    (hd : 8192 * d ≤ slope) (hd' : slope ≤ 8192 * (d + 1)) {lo hi : Int} (hlo : tickReading slope offset 0 = lo)
    (hhi : tickReading slope offset 65535 = hi) (s : State) (k : Nat) (hk : k < 65536) :
    ∃ t, exec i { s with opa := BitVec.ofNat 32 k } = .next t ∧
      lo ≤ t.res.toInt ∧ t.res.toInt ≤ hi ∧ (k = 0 → t.res.toInt = lo) ∧ (k = 65535 → t.res.toInt = hi) ∧
      (k < 65535 → ∃ u, exec i { s with opa := BitVec.ofNat 32 (k + 1) } = .next u ∧
        (u.res.toInt = t.res.toInt + d ∨ u.res.toInt = t.res.toInt + d + 1)) := by
  subst hlo hhi
  obtain ⟨t, ht, hread⟩ := hreads { s with opa := BitVec.ofNat 32 k } k hk (toNat_tick hk)
  refine ⟨t, ht, ?_, ?_, fun hfirst => ?_, fun hlast => ?_, fun hnext => ?_⟩ <;> rw [hread]
  · exact tickReading_mono _ _ (Nat.zero_le k)
  · exact tickReading_mono _ _ (Nat.le_of_lt_succ hk)
  · rw [hfirst]
  · rw [hlast]
  · have hk' : k + 1 < 65536 := Nat.succ_lt_succ hnext
    obtain ⟨u, hu, hread'⟩ := hreads { s with opa := BitVec.ofNat 32 (k + 1) } (k + 1) hk' (toNat_tick hk')
    exact ⟨u, hu, hread' ▸ tickReading_succ slope d offset k hd hd'⟩

/-! ### The inverse conversions -/

/-- What an inverse conversion answers when `x` is its 32-bit expression: the tick `(x >> 15)[15:0]` where `x` neither overflows
nor goes negative, else a draw, and OK. -/
def inverseOutcome (x : Int) (s : State) : Host.Outcome State Fault Refusal :=
  if 0 ≤ x ∧ x ≤ 2147483647 then .next { s with res := BitVec.ofNat 32 (x.toNat / 32768 % 65536), err := 0#4 }
  else .next (s.drawRes16.signal .ok)

theorem t2tick_domain (t : Int) :
    (0 ≤ t * 12271 + 552195000 ∧ t * 12271 + 552195000 ≤ 2147483647) ↔ (-45000 ≤ t ∧ t ≤ 130004) := by omega

theorem rh2tick_domain (h : Int) : (0 ≤ h * 21474 ∧ h * 21474 ≤ 2147483647) ↔ (0 ≤ h ∧ h ≤ 100003) := by omega

/-- The model's tick from the expression, as a division of natural numbers. -/
theorem low16_shr {x : Int} (hx : 0 ≤ x) : low16 (shr x invShift) = BitVec.ofNat 32 (x.toNat / 32768 % 65536) := by
  have hdiv : shr x invShift = ((x.toNat / 32768 : Nat) : Int) := by
    rw [shr_eq]
    change x / 2 ^ 15 = _
    omega
  rw [hdiv, low16_of_nonneg (Int.natCast_nonneg _), Int.toNat_natCast]

/-- The model tests the operand, the spec the expression: where the two domains agree, so do the answers. -/
theorem inverseOutcome_of_domain {x : Int} {operandInDomain : Prop} [Decidable operandInDomain]
    (hdom : (0 ≤ x ∧ x ≤ 2147483647) ↔ operandInDomain) (s : State) :
    (if operandInDomain then .next ((s.setRes (low16 (shr x invShift))).signal .ok) else .next (s.drawRes16.signal .ok)) =
      inverseOutcome x s := by
  by_cases hx : 0 ≤ x ∧ x ≤ 2147483647
  · rw [inverseOutcome, if_pos hx, if_pos (hdom.mp hx), low16_shr hx.1]
    rfl
  · rw [inverseOutcome, if_neg hx, if_neg (mt hdom.mpr hx)]

theorem exec_convT2tick (s : State) : exec .convT2tick s = inverseOutcome (s.opa.toInt * 12271 + 552195000) s :=
  inverseOutcome_of_domain (t2tick_domain _) s

theorem exec_convRh2tick (s : State) : exec .convRh2tick s = inverseOutcome (s.opa.toInt * 21474) s :=
  inverseOutcome_of_domain (rh2tick_domain _) s

/-- Outside the domain RES is some 16-bit value, and only RES, ERR and the model's count of draws change. -/
theorem inverseOutcome_draws {x : Int} (hx : ¬(0 ≤ x ∧ x ≤ 2147483647)) (s : State) :
    ∃ (d : BitVec 16) (n : Nat), inverseOutcome x s = .next { s with res := BitVec.ofNat 32 d.toNat, draws := n, err := 0#4 } := by
  refine ⟨Config.draw16 s.draws, s.draws + 1, ?_⟩
  rw [inverseOutcome, if_neg hx, BitVec.ofNat_toNat]
  rfl

/-- In the domain the tick needs no cut to 16 bits. -/
theorem inverseOutcome_ticks {x : Int} (hx : 0 ≤ x ∧ x ≤ 2147483647) (s : State) :
    ∃ t, inverseOutcome x s = .next t ∧ (t.res.toNat : Int) = x / 32768 := by
  refine ⟨_, if_pos hx, ?_⟩
  rw [BitVec.toNat_ofNat]
  omega

theorem convT2tick_ticks (s : State) (t : Int) (hdom : -45000 ≤ t ∧ t ≤ 130004) (hopa : s.opa.toInt = t) :
    ∃ u, exec .convT2tick s = .next u ∧ (u.res.toNat : Int) = (t * 12271 + 552195000) / 32768 := by
  rw [exec_convT2tick, hopa]
  exact inverseOutcome_ticks ((t2tick_domain t).mpr hdom) s

theorem convRh2tick_ticks (s : State) (h : Int) (hdom : 0 ≤ h ∧ h ≤ 100003) (hopa : s.opa.toInt = h) :
    ∃ u, exec .convRh2tick s = .next u ∧ (u.res.toNat : Int) = h * 21474 / 32768 := by
  rw [exec_convRh2tick, hopa]
  exact inverseOutcome_ticks ((rh2tick_domain h).mpr hdom) s

/-! ### The statements -/

/-- Settles O35: the meaning of CONV.T on the number of OPA[15:0]. -/
theorem convTGivesMilliCelsius : Obligations.ConvTGivesMilliCelsius :=
  ⟨by decide, exec_convT⟩

/-- Settles O36: CONV.RH has no offset, so its reading is a natural number. -/
theorem convRhGivesMilliPercent : Obligations.ConvRhGivesMilliPercent := by
  refine ⟨by decide, fun s => ?_⟩
  rw [exec_convRh, forwardOutcome, tickReading, sub_zero, BitVec.ofInt_natCast]

/-- Settles O37: the meaning of CONV.RH4 on the number of OPA[15:0]. -/
theorem convRh4GivesMilliPercentUnclamped : Obligations.ConvRh4GivesMilliPercentUnclamped :=
  ⟨by decide, exec_convRh4⟩

/-- Settles O38: each of the three conversions is one affine map, with slopes between 2 and 3 and between 1 and 2. -/
theorem forwardConversionsIncreaseOverTheirRange : Obligations.ForwardConversionsIncreaseOverTheirRange := by
  intro i lo hi d hmem
  simp only [List.mem_cons, List.not_mem_nil, or_false, Prod.mk.injEq] at hmem
  obtain ⟨rfl, rfl, rfl, rfl⟩ | ⟨rfl, rfl, rfl, rfl⟩ | ⟨rfl, rfl, rfl, rfl⟩ := hmem
  · exact increases_of_reads (d := 2) convT_reads (by decide) (by decide) (by decide) (by decide)
  · exact increases_of_reads (d := 1) convRh_reads (by decide) (by decide) (by decide) (by decide)
  · exact increases_of_reads (d := 1) convRh4_reads (by decide) (by decide) (by decide) (by decide)

/-- Settles O39: the two clauses are the branches of CONV.T2TICK on its 32-bit expression. -/
theorem convT2tickInvertsInItsDomain : Obligations.ConvT2tickInvertsInItsDomain :=
  ⟨by decide, t2tick_domain, fun s =>
    ⟨fun hin => (exec_convT2tick s).trans (if_pos hin), fun hout => exec_convT2tick s ▸ inverseOutcome_draws hout s⟩⟩

/-- Settles O40: the two clauses are the branches of CONV.RH2TICK on its 32-bit expression. -/
theorem convRh2tickInvertsInItsDomain : Obligations.ConvRh2tickInvertsInItsDomain :=
  ⟨by decide, rh2tick_domain, fun s =>
    ⟨fun hin => (exec_convRh2tick s).trans (if_pos hin), fun hout => exec_convRh2tick s ▸ inverseOutcome_draws hout s⟩⟩

/-- Settles O41: each trip composes a tick and a reading. Its error is the two floors, and a drift since the product of the two
slopes falls short of 1; both are linear in the two quotients, so the bounds follow from their division inequalities. -/
theorem roundTripErrorsAreBounded : Obligations.RoundTripErrorsAreBounded := by
  refine ⟨fun s t hlo hhi => ?_, fun s h hlo hhi => ?_, fun s k hk => ?_, fun s k hk => ?_⟩
  · obtain ⟨u, hu, htick⟩ := convT2tick_ticks { s with opa := bits32 t } t ⟨hlo, hhi⟩
      (toInt_bits32 (by omega) (by omega))
    obtain ⟨v, hv, hread⟩ := convT_reads { u with opa := u.res } u.res.toNat (by omega) rfl
    rw [tickReading] at hread
    exact ⟨u, v, hu, hv, by omega, by omega, by omega, by omega, by omega⟩
  · obtain ⟨u, hu, htick⟩ := convRh2tick_ticks { s with opa := bits32 h } h ⟨hlo, hhi⟩
      (toInt_bits32 (by omega) (by omega))
    obtain ⟨v, hv, hread⟩ := convRh_reads { u with opa := u.res } u.res.toNat (by omega) rfl
    rw [tickReading] at hread
    exact ⟨u, v, hu, hv, by omega, by omega, by omega⟩
  · obtain ⟨u, hu, hread⟩ := convT_reads { s with opa := BitVec.ofNat 32 k } k hk (toNat_tick hk)
    rw [tickReading] at hread
    obtain ⟨v, hv, htick⟩ := convT2tick_ticks { u with opa := u.res } u.res.toInt (by omega) rfl
    have hsigned : v.res.toInt = v.res.toNat := BitVec.toInt_eq_toNat_of_lt (by omega)
    exact ⟨u, v, hu, hv, by omega, by omega⟩
  · obtain ⟨u, hu, hread⟩ := convRh_reads { s with opa := BitVec.ofNat 32 k } k hk (toNat_tick hk)
    rw [tickReading] at hread
    obtain ⟨v, hv, htick⟩ := convRh2tick_ticks { u with opa := u.res } u.res.toInt (by omega) rfl
    have hsigned : v.res.toInt = v.res.toNat := BitVec.toInt_eq_toNat_of_lt (by omega)
    exact ⟨u, v, hu, hv, by omega, by omega⟩

end Sys2Proof.Machine
end

section
/-! The humidity interpolator and the Celsius/Fahrenheit scaler (43_humidity_lut_and_scaler.md R160 to R173): the meaning of each
command on the registers' numbers, and the proofs of the statements about them. All three end alike, in an exact result inside a
domain and a 32-bit draw outside, so that is said once. -/

namespace Sys2Proof.Machine

/-! ### An exact result or a draw -/

/-- What a command with a domain and a 32-bit draw answers: `z` in RES inside its domain, a draw outside, and OK. -/
def exactOrDraw (inDomain : Prop) [Decidable inDomain] (z : Int) (s : State) : Host.Outcome State Fault Refusal :=
  if inDomain then .next { s with res := BitVec.ofInt 32 z, err := 0#4 } else .next (s.drawRes32.signal .ok)

theorem exactOrDraw_exact {inDomain : Prop} [Decidable inDomain] (hin : inDomain) (z : Int) (s : State) :
    exactOrDraw inDomain z s = .next { s with res := BitVec.ofInt 32 z, err := 0#4 } :=
  if_pos hin

/-- Outside the domain only RES, ERR and the model's count of draws change. -/
theorem exactOrDraw_draws {inDomain : Prop} [Decidable inDomain] (hout : ¬inDomain) (z : Int) (s : State) :
    ∃ (d : Word) (n : Nat), exactOrDraw inDomain z s = .next { s with res := d, draws := n, err := 0#4 } :=
  ⟨Config.draw32 s.draws, s.draws + 1, if_neg hout⟩

/-! ### The scaler -/

theorem exec_convC2f (s : State) : exec .convC2f s =
    exactOrDraw (-291000 ≤ s.opa.toInt ∧ s.opa.toInt ≤ 291000) (tdiv (9 * s.opa.toInt) 5 + 32000) s := rfl

theorem exec_convF2c (s : State) : exec .convF2c s =
    exactOrDraw (-3571000 ≤ s.opa.toInt ∧ s.opa.toInt ≤ 3635000) (tdiv (5 * (s.opa.toInt - 32000)) 9) s := rfl

theorem tdiv_of_nonneg {a : Int} (ha : 0 ≤ a) (b : Int) : tdiv a b = a / b := by
  rw [tdiv_eq, if_pos ha]

theorem tdiv_of_neg {a : Int} (ha : a < 0) (b : Int) : tdiv a b = -(-a / b) := by
  rw [tdiv_eq, if_neg (Int.not_le.mpr ha)]

/-! ### The table's value at a temperature -/

theorem ahOffset_of_le {t : Int} (ht : t ≤ -20000) : ahOffset t = 0 := by
  simp only [ahOffset, tLo]
  split <;> omega

theorem ahOffset_of_ge {t : Int} (ht : -20000 ≤ t) : (ahOffset t : Int) = t + 20000 := by
  simp only [ahOffset, tLo]
  split <;> omega

/-- At T_LO or below the value is the first entry. -/
theorem ahInterpolate_of_le_tLo (lut : AhLut) {t : Int} (ht : t ≤ -20000) :
    ahInterpolate lut (ahOffset t) = lut[0].toNat := by
  have hfirst := ahInterpolate_segment lut 0 0 (by omega) (by omega)
  rw [ahOffset_of_le ht]
  simpa using hfirst

/-- At T_HI or above the value is the last entry. -/
theorem ahInterpolate_of_tHi_le (lut : AhLut) {t : Int} (ht : 70000 ≤ t) :
    ahInterpolate lut (ahOffset t) = lut[9].toNat := by
  have hoff := ahOffset_of_ge (t := t) (by omega)
  exact ahInterpolate_top lut _ (by omega)

/-- In segment `i` the value lies on the line between the two entries, rounded down. -/
theorem ahInterpolate_of_segment (lut : AhLut) {t : Int} (i : Fin 9) (hlo : -20000 + 10000 * (i.val : Int) ≤ t)
    (hhi : t < -10000 + 10000 * (i.val : Int)) :
    ahInterpolate lut (ahOffset t) = lut[i.val].toNat +
      ((lut[i.val + 1].toNat : Int) - lut[i.val].toNat) * (t + 20000 - 10000 * (i.val : Int)) / 10000 := by
  obtain ⟨rem, hrem⟩ := Int.eq_ofNat_of_zero_le (a := t + 20000 - 10000 * (i.val : Int)) (by omega)
  have hoff := ahOffset_of_ge (t := t) (by omega)
  have hsplit : ahOffset t = 10000 * i.val + rem := by omega
  rw [hsplit, hrem, ahInterpolate_segment lut i.val rem i.isLt (by omega)]

/-! ### CONV.AH -/

theorem exec_convAh_of_nonpos {s : State} (hh : s.opb.toInt ≤ 0) :
    exec .convAh s = .next { s with res := 0x00000000#32, err := 0#4 } :=
  if_pos hh

theorem exec_convAh_of_pos {s : State} (hh : 0 < s.opb.toInt) : exec .convAh s =
    exactOrDraw (ahInterpolate s.ahLut (ahOffset s.opa.toInt) / 8 * s.opb.toInt ≤ 4294967295)
      (ahInterpolate s.ahLut (ahOffset s.opa.toInt) / 8 * s.opb.toInt / 12500) s := by
  rw [← ahProduct_eq, ← floorDiv_of_pos _ (by decide)]
  exact if_neg (Int.not_le.mpr hh)

theorem ofInt_eq_ofNat_toNat {z : Int} (hz : 0 ≤ z) : BitVec.ofInt 32 z = BitVec.ofNat 32 z.toNat := by
  rw [← BitVec.ofInt_natCast, Int.toNat_of_nonneg hz]

/-! ### The statements -/

/-- Settles O43: the three regions of the temperature all name the model's interpolated value, which is never negative, so neither
is the scaled product. -/
theorem convAhInterpolatesAndScales : Obligations.ConvAhInterpolatesAndScales := by
  refine ⟨by decide, fun s hh => exec_convAh_of_nonpos hh, fun s r hh hr => ?_⟩
  have hval : ahInterpolate s.ahLut (ahOffset s.opa.toInt) = r := by
    obtain ⟨ht, rfl⟩ | ⟨ht, rfl⟩ | ⟨i, hlo, hhi, rfl⟩ := hr
    · exact ahInterpolate_of_le_tLo s.ahLut ht
    · exact ahInterpolate_of_tHi_le s.ahLut ht
    · exact ahInterpolate_of_segment s.ahLut i hlo hhi
  have hr0 : 0 ≤ r := hval ▸ ahInterpolate_nonneg s.ahLut _
  have hres : 0 ≤ r / 8 * s.opb.toInt / 12500 := by positivity
  rw [exec_convAh_of_pos hh, hval]
  refine ⟨fun hin => ?_, fun hout => exactOrDraw_draws (Int.not_le.mpr hout) _ s⟩
  rw [exactOrDraw_exact hin, ofInt_eq_ofNat_toNat hres]

/-- Settles O47: the first two clauses are the domain, cut where 9c changes its sign and rounding toward zero its direction. -/
theorem convC2fScalesInItsRange : Obligations.ConvC2fScalesInItsRange := by
  refine ⟨by decide, fun s => ?_⟩
  rw [exec_convC2f]
  refine ⟨fun hc hhi => ?_, fun hlo hc => ?_, fun hout => exactOrDraw_draws (by omega) _ s⟩
  · rw [exactOrDraw_exact (by omega), tdiv_of_nonneg (by omega)]
  · have hround : -(-(9 * s.opa.toInt) / 5) + 32000 = 32000 - 9 * (-s.opa.toInt) / 5 := by omega
    rw [exactOrDraw_exact (by omega), tdiv_of_neg (by omega), hround]

/-- Settles O48: the first two clauses are the domain, cut at 32 °F, where rounding toward zero changes its direction. -/
theorem convF2cScalesInItsRange : Obligations.ConvF2cScalesInItsRange := by
  refine ⟨by decide, fun s => ?_⟩
  rw [exec_convF2c]
  refine ⟨fun hf hhi => ?_, fun hlo hf => ?_, fun hout => exactOrDraw_draws (by omega) _ s⟩
  · rw [exactOrDraw_exact (by omega), tdiv_of_nonneg (by omega)]
  · have hround : -(-(5 * (s.opa.toInt - 32000)) / 9) = -(5 * (32000 - s.opa.toInt) / 9) := by omega
    rw [exactOrDraw_exact (by omega), tdiv_of_neg (by omega), hround]

end Sys2Proof.Machine
end

section
/-! The system command NOP (44_system.md R190): what it answers, and the proof of the statement about it. -/

namespace Sys2Proof.Machine

/-- R13 at OK: what every command that completes without an error leaves in ERR. -/
theorem signal_ok (s : State) : s.signal .ok = { s with err := 0#4 } := rfl

theorem exec_nop (s : State) : exec .nop s = .next (s.signal .ok) := rfl

/-- Settles O24: NOP is `signal OK` and nothing else, and signalling writes ERR alone. -/
theorem nopOnlyClearsErr : Obligations.NopOnlyClearsErr := by
  refine ⟨by decide, fun s => ?_⟩
  rw [exec_nop, signal_ok]

end Sys2Proof.Machine
end

section
/-! Illegal command words (30_encoding.md R86, R87; 60_exceptions.md R202): a word that decodes is the opcode of its command, no
command's opcode is in R87's ranges, and a word that does not decode only signals ILLEGAL_OPERATION. -/

namespace Sys2Proof.Machine

/-- R87's list of ranges, written out. -/
theorem opcodeUnassigned_iff (op : BitVec 8) : opcodeUnassigned op = true ↔
    (0x02 ≤ op.toNat ∧ op.toNat ≤ 0x0F) ∨ (0x16 ≤ op.toNat ∧ op.toNat ≤ 0x1F) ∨ (0x25 ≤ op.toNat ∧ op.toNat ≤ 0x2F) ∨
      (0x31 ≤ op.toNat ∧ op.toNat ≤ 0x3F) ∨ (0x42 ≤ op.toNat ∧ op.toNat ≤ 0xFF) := by
  simp [opcodeUnassigned, unassignedRanges]

theorem opcode_assigned (i : Instr) : opcodeUnassigned i.opcode = false := by cases i <;> decide

theorem eq_opcode_of_ofOpcode {op : BitVec 8} {i : Instr} (h : Instr.ofOpcode op = some i) : op = i.opcode := by
  unfold Instr.ofOpcode at h
  split at h <;> cases h <;> rfl

/-- A word whose RSV is 0 is the number in OP (R80). -/
theorem toNat_opField {w : Word} (hrsv : rsvField w = 0#24) : (opField w).toNat = w.toNat := by
  have hhigh : w.toNat / 256 % 16777216 = 0 := by
    simpa [rsvField, Nat.shiftRight_eq_div_pow] using congrArg BitVec.toNat hrsv
  have hlow : (opField w).toNat = w.toNat % 256 := by simp [opField]
  omega

theorem toNat_of_decode {w : Word} {i : Instr} (h : decode w = .ok i) : w.toNat = i.opcode.toNat := by
  unfold decode at h
  split at h
  case isFalse => cases h
  case isTrue hrsv =>
    split at h
    case h_2 => cases h
    case h_1 j hop =>
      cases h
      rw [← toNat_opField hrsv, eq_opcode_of_ofOpcode hop]

/-- R86: a word that decodes to no command only signals. -/
theorem executeCommand_of_illegal {w : Word} (h : ∀ i, decode w ≠ .ok i) (s : State) :
    executeCommand w s = .next (s.signal .illegalOperation) := by
  unfold executeCommand
  split
  case h_1 i hi => exact absurd hi (h i)
  case h_2 => rfl

/-- Settles O4: a word that decodes is its command's opcode, which has 8 bits and is in none of R87's ranges. -/
theorem illegalWordOnlySignals : Obligations.IllegalWordOnlySignals := by
  intro s w hw
  refine executeCommand_of_illegal (fun i hi => ?_) s
  rw [toNat_of_decode hi] at hw
  rcases hw with hbig | hrange
  · exact absurd i.opcode.isLt (Nat.not_lt.mpr hbig)
  · have hun : opcodeUnassigned i.opcode = true := (opcodeUnassigned_iff _).mpr hrange
    simp [opcode_assigned] at hun

end Sys2Proof.Machine
end

section
/-! Decoding (30_encoding.md R84 to R87): the decoder and the encoder are inverse on legal words, and R87's ranges are the opcodes
that R84's map leaves. -/

namespace Sys2Proof

theorem ofOpcode_opcode (i : Instr) : Instr.ofOpcode i.opcode = some i := by cases i <;> rfl

theorem rsvField_encode (i : Instr) : rsvField (encode i) = 0#24 := by cases i <;> decide

theorem opField_encode (i : Instr) : opField (encode i) = i.opcode := by cases i <;> decide

theorem toNat_encode (i : Instr) : (encode i).toNat = i.opcode.toNat := by
  rw [← Machine.toNat_opField (rsvField_encode i), opField_encode]

/-- The decoder accepts a word when RSV is 0 and the map has its opcode (R85). -/
theorem decode_eq_ok_iff {w : Word} {i : Instr} :
    decode w = .ok i ↔ rsvField w = 0#24 ∧ Instr.ofOpcode (opField w) = some i := by
  unfold decode
  split
  case isTrue hrsv => cases Instr.ofOpcode (opField w) <;> simp [hrsv]
  case isFalse hrsv => simp [hrsv]

theorem decode_encode (i : Instr) : decode (encode i) = .ok i :=
  decode_eq_ok_iff.mpr ⟨rsvField_encode i, (opField_encode i).symm ▸ ofOpcode_opcode i⟩

/-- R87's ranges and R84's map split the 256 opcodes. -/
theorem opcodeUnassigned_iff_ofOpcode : ∀ op : BitVec 8, opcodeUnassigned op = true ↔ Instr.ofOpcode op = none := by
  decide

theorem legalWord_iff {w : Word} : legalWord w = true ↔ rsvField w = 0#24 ∧ opcodeUnassigned (opField w) = false := by
  simp [legalWord, rsvField, opField]

/-- Settles O1: a word that decodes is the number of its command's opcode, and so is the command's own word. -/
theorem decodeIsExactlyTheOpcodeMap : Obligations.DecodeIsExactlyTheOpcodeMap := by
  refine fun w i => ⟨fun hdecode => BitVec.eq_of_toNat_eq ?_, fun hword => hword ▸ decode_encode i⟩
  rw [Machine.toNat_of_decode hdecode, toNat_encode]

/-- Settles O2: both sides ask for RSV = 0, and of the opcode one asks that no range of R87 holds it, the other that R84's map has
it. -/
theorem legalWordsAreTheOnesThatDecode : Obligations.LegalWordsAreTheOnesThatDecode := by
  intro w
  simp only [decode_eq_ok_iff, exists_and_left]
  rw [legalWord_iff, ← Option.isSome_iff_exists, ← Option.ne_none_iff_isSome, ne_eq, ← opcodeUnassigned_iff_ofOpcode,
    Bool.not_eq_true]

/-- Settles O3: the legal words written out are their commands' own. -/
theorem sampleWordsDecode : Obligations.SampleWordsDecode :=
  ⟨decode_encode .nop, decode_encode .crcChk16, decode_encode .convRh2tick, decode_encode .convAh, decode_encode .convF2c,
    by decide, by decide⟩

end Sys2Proof
end

section
/-! What every step keeps (10_state.md R36, R40, R41, R43): ERR is a produced code and the ROM is a table of R41, which no event
writes. Said of a command, of an event and of a step. -/

namespace Sys2Proof.Machine

/-! ### The table -/

/-- A table's entries as a sequence. -/
def tableSequence (t : AhLut) (i : Nat) : Nat := if h : i < 10 then t[i].toNat else 0

theorem tableSequence_of_lt (t : AhLut) {i : Nat} (h : i < 10) : tableSequence t i = t[i].toNat := dif_pos h

/-- A table made from a sequence meets R41. -/
theorem ofRaw_ok (raw : Nat → Nat) : (AhLut.ofRaw raw).Ok := by
  refine ⟨fun i => ?_, fun i => ?_⟩
  · rw [AhLut.toNat_ofRaw raw i.val (by omega), AhLut.toNat_ofRaw raw (i.val + 1) (by omega)]
    exact AhLut.entryOfRaw_le_succ raw i.val
  · rw [AhLut.toNat_ofRaw raw i.val i.isLt]
    exact AhLut.entryOfRaw_le_bound raw i.val

/-- A table that meets R41 is made from its own entries, which are left as they are. -/
theorem ofRaw_tableSequence {t : AhLut} (h : t.Ok) : AhLut.ofRaw (tableSequence t) = t := by
  obtain ⟨hmono, hbound⟩ := h
  refine Vector.ext fun i hi => BitVec.eq_of_toNat_eq ?_
  rw [AhLut.toNat_ofRaw _ i hi, AhLut.entryOfRaw_of_monotone, tableSequence_of_lt t hi]
  · intro j hj
    rw [tableSequence_of_lt t (by omega), tableSequence_of_lt t (by omega)]
    exact hmono ⟨j, by omega⟩
  · intro j hj
    rw [tableSequence_of_lt t (by omega)]
    exact hbound ⟨j, by omega⟩

/-! ### The invariant -/

theorem code_toNat_le_two (e : ErrCode) : e.code.toNat ≤ 2 := by cases e <;> decide

/-- A command leaves a code of R200 in ERR. -/
theorem CommandEffect.err_eq_code {i : Instr} {s t : State} (h : CommandEffect i s t) : ∃ e : ErrCode, t.err = e.code := by
  cases h <;> exact ⟨_, State.signal_err _ _⟩

theorem CommandEffect.ahLut_eq {i : Instr} {s t : State} (h : CommandEffect i s t) : t.ahLut = s.ahLut := by
  cases h <;> rfl

/-- An event leaves ERR as it is, or leaves a code of R200 in it. -/
theorem EventEffect.err_eq_or_code {e : BusEvent} {s t : State} (h : EventEffect e s t) :
    t.err = s.err ∨ ∃ c : ErrCode, t.err = c.code := by
  cases h with
  | reset => exact .inr ⟨.ok, rfl⟩
  | unseen | answer | writeOpa | writeOpb => exact .inl rfl
  | illegal => exact .inr ⟨_, State.signal_err _ _⟩
  | command _ _ _ _ _ _ ht => exact .inr (exec_cases ht).err_eq_code

theorem EventEffect.ahLut_eq {e : BusEvent} {s t : State} (h : EventEffect e s t) : t.ahLut = s.ahLut := by
  cases h with
  | reset | unseen | answer | writeOpa | writeOpb | illegal => rfl
  | command _ _ _ _ _ _ ht => exact (exec_cases ht).ahLut_eq

theorem step_err_eq_or_code {s t : State} (h : step s = .next t) : t.err = s.err ∨ ∃ c : ErrCode, t.err = c.code := by
  obtain ⟨_, rfl⟩ | ⟨_, _, _, he⟩ := step_cases h
  · exact .inl rfl
  · exact he.err_eq_or_code

theorem step_ahLut {s t : State} (h : step s = .next t) : t.ahLut = s.ahLut := by
  obtain ⟨_, rfl⟩ | ⟨_, _, _, he⟩ := step_cases h
  · rfl
  · exact he.ahLut_eq

/-! ### The statements -/

/-- Settles O17: a step leaves ERR or writes a code of R200 to it, and it leaves the ROM. -/
theorem everyStepKeepsTheInvariant : Obligations.EveryStepKeepsTheInvariant := by
  rintro s t ⟨herr, hrom⟩ hstep
  refine ⟨?_, (step_ahLut hstep).symm ▸ hrom⟩
  obtain hkept | ⟨c, hcode⟩ := step_err_eq_or_code hstep
  · exact hkept ▸ herr
  · exact hcode ▸ code_toNat_le_two c

/-- Settles O18: neither an event nor a command has the ROM among what it writes. -/
theorem romNeverChanges : Obligations.RomNeverChanges := fun _ _ => step_ahLut

/-- Settles O15: one way by the table's own entries, the other since the cut sequence is bounded and non-decreasing. -/
theorem tablesMadeAreExactlyTheAllowedOnes : Obligations.TablesMadeAreExactlyTheAllowedOnes := by
  refine fun t => ⟨fun hok => ⟨tableSequence t, ofRaw_tableSequence hok⟩, ?_⟩
  rintro ⟨raw, rfl⟩
  exact ofRaw_ok raw

/-- Settles O13: the record `State.reset` holds the stated values by definition. -/
theorem resetStateHoldsTheStatedValues : Obligations.ResetStateHoldsTheStatedValues :=
  ⟨rfl, rfl, rfl, rfl, rfl, rfl⟩

/-- Settles O16: ERR is OK after reset, and AH_LUT is made from a sequence. -/
theorem invariantHoldsAtReset : Obligations.InvariantHoldsAtReset :=
  ⟨code_toNat_le_two .ok, ofRaw_ok Config.ahLutRaw⟩

end Sys2Proof.Machine
end

section
/-! What commands write and what they read (00_scope.md R16, 10_state.md R32 to R39, 30_encoding.md R82): the frame of each
register, from the effects a command can have, and the one effect a command has on states that agree on its operands. -/

namespace Sys2Proof.Machine

/-! ### The frame -/

theorem CommandEffect.operands_eq {i : Instr} {s t : State} (h : CommandEffect i s t) (hi : i ≠ .srst) :
    t.opa = s.opa ∧ t.opb = s.opb := by
  cases h
  case reset hsrst => exact absurd hsrst hi
  all_goals exact ⟨rfl, rfl⟩

theorem CommandEffect.acc_eq {i : Instr} {s t : State} (h : CommandEffect i s t)
    (hi : i ∉ [.srst, .crcInit, .crcByte, .crcWord]) : t.acc = s.acc := by
  cases h
  case reset hsrst => simp [hsrst] at hi
  case accumulate hstream => rcases hstream with rfl | rfl | rfl <;> simp at hi
  all_goals rfl

/-- RES is left by the commands with no result, and by every command that fails. -/
theorem CommandEffect.res_eq {i : Instr} {s t : State} (h : CommandEffect i s t)
    (hi : i ∈ [.nop, .crcInit, .crcByte, .crcWord, .crcChkacc] ∨ t.err ≠ 0#4) : t.res = s.res := by
  cases h
  case reset hsrst => simp [hsrst, ErrCode.code] at hi
  case result hi' => simp_all [ErrCode.code]
  case draw16 hi' => rcases hi' with rfl | rfl <;> simp [ErrCode.code] at hi
  case draw32 hi' => rcases hi' with rfl | rfl | rfl <;> simp [ErrCode.code] at hi
  all_goals rfl

theorem CommandEffect.draws_eq {i : Instr} {s t : State} (h : CommandEffect i s t)
    (hi : i ∉ [.convT2tick, .convRh2tick, .convAh, .convC2f, .convF2c]) : t.draws = s.draws := by
  cases h
  case draw16 hi' => rcases hi' with rfl | rfl <;> simp at hi
  case draw32 hi' => rcases hi' with rfl | rfl | rfl <;> simp at hi
  all_goals rfl

/-- Only the two commands that check a checksum can leave an error. -/
theorem CommandEffect.err_eq_zero {i : Instr} {s t : State} (h : CommandEffect i s t) (hi : i ∉ [.crcChkacc, .crcChk16]) :
    t.err = 0#4 := by
  cases h
  case mismatch hcheck => rcases hcheck with rfl | rfl <;> simp at hi
  all_goals rfl

/-! ### The operands -/

/-- What a command writes, with the values it writes. -/
inductive Update where
  | reset
  | signal (e : ErrCode)
  | accumulate (c : Byte)
  | result (v : Word)
  | draw16
  | draw32

/-- The state after an update: the effects of `CommandEffect`, as functions of the state. -/
def Update.apply : Update → State → State
  | .reset, s => s.resetUnit.signal .ok
  | .signal e, s => s.signal e
  | .accumulate c, s => (s.setAcc c).signal .ok
  | .result v, s => (s.setRes v).signal .ok
  | .draw16, s => s.drawRes16.signal .ok
  | .draw32, s => s.drawRes32.signal .ok

/-- Two states agree on all a command reads: the operand bits its layout names (R82), CRC.acc and the ROM. -/
structure SameOperands (i : Instr) (s s' : State) : Prop where
  opa : s'.opa.toNat % 2 ^ (layoutOf i).opaBits = s.opa.toNat % 2 ^ (layoutOf i).opaBits
  opb : s'.opb.toNat % 2 ^ (layoutOf i).opbBits = s.opb.toNat % 2 ^ (layoutOf i).opbBits
  acc : s'.acc = s.acc
  ahLut : s'.ahLut = s.ahLut

/-- A layout that names all 32 bits leaves none to ignore. -/
theorem eq_of_mod_two_pow_32_eq {a b : Word} (h : a.toNat % 2 ^ 32 = b.toNat % 2 ^ 32) : a = b := by
  rwa [Nat.mod_eq_of_lt a.isLt, Nat.mod_eq_of_lt b.isLt, BitVec.toNat_inj] at h

/-- On states that agree on its operands a command makes one and the same update. -/
theorem exec_sameUpdate {i : Instr} {s s' : State} (h : SameOperands i s s') :
    ∃ u : Update, exec i s = .next (u.apply s) ∧ exec i s' = .next (u.apply s') := by
  obtain ⟨hopa, hopb, hacc, hrom⟩ := h
  have field {n : Nat} (hopa : s'.opa.toNat % 2 ^ n = s.opa.toNat % 2 ^ n) (lo len : Nat) (hlen : lo + len ≤ n) :
      s'.opa.extractLsb' lo len = s.opa.extractLsb' lo len := extract_of_mod_eq hopa hlen
  cases i with
  | nop => exact ⟨.signal .ok, rfl, rfl⟩
  | srst => exact ⟨.reset, rfl, rfl⟩
  | crcInit => exact ⟨.accumulate crcInit, rfl, rfl⟩
  | crcByte =>
    simp only [exec, execCrcByte, State.b8, field hopa 0 8 (by decide), hacc]
    exact ⟨.accumulate _, rfl, rfl⟩
  | crcWord =>
    simp only [exec, execCrcWord, State.w16Msb, State.w16Lsb, field hopa 8 8 (by decide), field hopa 0 8 (by decide), hacc]
    exact ⟨.accumulate _, rfl, rfl⟩
  | crcChkacc =>
    simp only [exec, execCrcChkacc, State.b8, field hopa 0 8 (by decide), hacc]
    split
    · exact ⟨.signal .ok, rfl, rfl⟩
    · exact ⟨.signal .checksumMismatch, rfl, rfl⟩
  | crcGen16 =>
    simp only [exec, execCrcGen16, State.w16Msb, State.w16Lsb, field hopa 8 8 (by decide), field hopa 0 8 (by decide)]
    exact ⟨.result _, rfl, rfl⟩
  | crcChk16 =>
    simp only [exec, execCrcChk16, State.w24cMsb, State.w24cLsb, State.w24cChk, State.w24cWord, field hopa 16 8 (by decide),
      field hopa 8 8 (by decide), field hopa 0 8 (by decide), field hopa 8 16 (by decide)]
    split
    · exact ⟨.result _, rfl, rfl⟩
    · exact ⟨.signal .checksumMismatch, rfl, rfl⟩
  | convT | convRh | convRh4 =>
    simp only [exec, execConvT, execConvRh, execConvRh4, State.t16, field hopa 0 16 (by decide)]
    exact ⟨.result _, rfl, rfl⟩
  | convT2tick | convRh2tick =>
    simp only [exec, execConvT2tick, execConvRh2tick, State.s32a, eq_of_mod_two_pow_32_eq hopa]
    split
    · exact ⟨.result _, rfl, rfl⟩
    · exact ⟨.draw16, rfl, rfl⟩
  | convAh =>
    simp only [exec, execConvAh, State.s32a, State.s32b, eq_of_mod_two_pow_32_eq hopa, eq_of_mod_two_pow_32_eq hopb, hrom]
    split
    · exact ⟨.result _, rfl, rfl⟩
    · split
      · exact ⟨.result _, rfl, rfl⟩
      · exact ⟨.draw32, rfl, rfl⟩
  | convC2f | convF2c =>
    simp only [exec, execConvC2f, execConvF2c, State.s32a, eq_of_mod_two_pow_32_eq hopa]
    split
    · exact ⟨.result _, rfl, rfl⟩
    · exact ⟨.draw32, rfl, rfl⟩

/-- Every update overwrites ERR. -/
theorem Update.apply_withErr (u : Update) (s : State) (e : BitVec 4) : u.apply { s with err := e } = u.apply s := by
  cases u <;> rfl

/-- An update writes RES without a look at the old one, or leaves it. -/
theorem Update.apply_res (u : Update) {s s' : State} (hdraws : s'.draws = s.draws) :
    (u.apply s').res = (u.apply s).res ∨ ((u.apply s).res = s.res ∧ (u.apply s').res = s'.res) := by
  cases u with
  | reset | result => exact .inl rfl
  | signal | accumulate => exact .inr ⟨rfl, rfl⟩
  | draw16 | draw32 => exact .inl (by simp [Update.apply, hdraws])

theorem Update.apply_opa (u : Update) {s s' : State} (h : s'.opa = s.opa) : (u.apply s').opa = (u.apply s).opa := by
  cases u with
  | reset => rfl
  | _ => exact h

theorem Update.apply_opb (u : Update) {s s' : State} (h : s'.opb = s.opb) : (u.apply s').opb = (u.apply s).opb := by
  cases u with
  | reset => rfl
  | _ => exact h

theorem Update.apply_acc (u : Update) {s s' : State} (h : s'.acc = s.acc) : (u.apply s').acc = (u.apply s).acc := by
  cases u with
  | reset | accumulate => rfl
  | _ => exact h

theorem Update.apply_err (u : Update) (s s' : State) : (u.apply s').err = (u.apply s).err := by
  cases u <;> rfl

/-! ### The statements -/

/-- Settles O19: each clause is the frame of one register over the effects a command can have. -/
theorem commandsWriteOnlyTheirRegisters : Obligations.CommandsWriteOnlyTheirRegisters := by
  intro i s t hexec
  have heffect := exec_cases hexec
  obtain ⟨hpending, hresponses⟩ := exec_hostSide hexec
  exact ⟨heffect.ahLut_eq, hpending, hresponses, heffect.operands_eq, heffect.acc_eq, heffect.res_eq, heffect.draws_eq⟩

/-- Settles O21: both states get the command's one update, which reads of the state only what they agree on. -/
theorem commandsReadOnlyTheNamedState : Obligations.CommandsReadOnlyTheNamedState := by
  intro i s s' hopa hopb hacc hrom hdraws
  have hsame : SameOperands i s s' := ⟨by rw [hopa], by rw [hopb], hacc, hrom⟩
  obtain ⟨u, hs, hs'⟩ := exec_sameUpdate hsame
  exact ⟨_, _, hs, hs', u.apply_opa hopa, u.apply_opb hopb, u.apply_acc hacc, u.apply_err s s', u.apply_res hdraws⟩

/-- Settles O22: states that differ in ignored operand bits alone get one update, which leaves OPA and OPB out of RES, CRC.acc and
ERR. -/
theorem ignoredOperandBitsDoNotMatter : Obligations.IgnoredOperandBitsDoNotMatter := by
  intro i s a b ha hb
  obtain ⟨u, hs, hs'⟩ := exec_sameUpdate (s := s) (s' := { s with opa := a, opb := b }) ⟨ha, hb, rfl, rfl⟩
  refine ⟨_, _, hs, hs', ?_, u.apply_acc rfl, u.apply_err _ _⟩
  obtain hres | ⟨hleft, hleft'⟩ := u.apply_res (s := s) (s' := { s with opa := a, opb := b }) rfl
  · exact hres
  · exact hleft'.trans hleft.symm

/-- Settles O23: no conversion is one of the commands that can fail. -/
theorem conversionsNeverSignalAnError : Obligations.ConversionsNeverSignalAnError := by
  intro i s hconv
  obtain ⟨t, hexec, heffect⟩ := exec_effect i s
  refine ⟨t, hexec, heffect.err_eq_zero fun hcheck => ?_⟩
  simp only [List.mem_cons, List.not_mem_nil, or_false] at hcheck
  rcases hcheck with rfl | rfl <;> simp at hconv

/-- Settles O20: ERR is no operand, so a command makes one update whatever ERR holds, and every update overwrites it, as an illegal
word does. -/
theorem errIsOverwrittenAndNeverRead : Obligations.ErrIsOverwrittenAndNeverRead := by
  intro w s e
  unfold executeCommand
  split
  case h_1 i _ =>
    obtain ⟨u, hs, hs'⟩ := exec_sameUpdate (i := i) (s := s) (s' := { s with err := e }) ⟨rfl, rfl, rfl, rfl⟩
    rw [hs, hs', u.apply_withErr]
  case h_2 => rfl

end Sys2Proof.Machine
end

section
/-! Host accesses and runs (20_memory.md R60 to R73, 70_reset_and_hazards.md R230, R231): where an access lands, what a read and a
write at an offset answer, what one event does to the host's side, and runs over lists of events. -/

namespace Sys2Proof.Machine

/-! ### Accesses in the window and outside -/

/-- An offset below 32 is where an access at UNIT_BASE plus that offset lands. -/
theorem windowOffset_of_eq {a : BusAddr} {off : Nat} (hoff : off < 32) (ha : a.toNat = Config.unitBase + off) :
    a.windowOffset = some (BitVec.ofNat 5 off) := by
  rw [BusAddr.windowOffset_eq_some, ha, BitVec.toNat_ofNat, Nat.mod_eq_of_lt hoff]

theorem serve_read_at {a : BusAddr} {off : Offset} (ha : a.windowOffset = some off) (n : BusSize) (s : State) :
    serve (.read a n) s = .next (accessRead a n off s) := by
  simp only [serve, ha]

theorem serve_write_at {a : BusAddr} {off : Offset} (ha : a.windowOffset = some off) (n : BusSize) (v : Word) (s : State) :
    serve (.write a n v) s = accessWrite a n v off s := by
  simp only [serve, ha]

theorem serve_read_outside {a : BusAddr} (ha : a.windowOffset = none) (n : BusSize) (s : State) :
    serve (.read a n) s = .next s := by
  simp only [serve, ha]

theorem serve_write_outside {a : BusAddr} (ha : a.windowOffset = none) (n : BusSize) (v : Word) (s : State) :
    serve (.write a n v) s = .next s := by
  simp only [serve, ha]

/-! ### The access function -/

theorem answer_injective {s : State} {r r' : Response} (h : s.answer r = s.answer r') : r = r' :=
  (List.cons.inj (congrArg State.responses h)).1

/-- An aligned 4-byte read of a readable register answers its value. -/
theorem accessRead_of_readable (a : BusAddr) {off : Offset} {s : State} {v : Word} (halign : aligned off = true)
    (hreg : (Reg.ofOffset off).bind s.readReg = some v) : accessRead a (.single 4) off s = s.answer (.data v) := by
  have hword : (BusSize.single 4).isWord = true := rfl
  simp only [accessRead, hword, halign, Bool.and_self, if_true, hreg]

/-- The wrong size or alignment (R62, R63). -/
theorem accessRead_of_malformed (a : BusAddr) {n : BusSize} {off : Offset} (h : (n.isWord && aligned off) = false) (s : State) :
    accessRead a n off s = s.busError a := by
  simp only [accessRead, h, Bool.false_eq_true, if_false]

/-- No register stands at the offset, or one that is not read (R64). -/
theorem accessRead_of_unreadable (a : BusAddr) (n : BusSize) {off : Offset} {s : State}
    (hreg : (Reg.ofOffset off).bind s.readReg = none) : accessRead a n off s = s.busError a := by
  unfold accessRead
  split
  · rw [hreg]
  · rfl

theorem accessWrite_of_malformed (a : BusAddr) {n : BusSize} (v : Word) {off : Offset} (h : (n.isWord && aligned off) = false)
    (s : State) : accessWrite a n v off s = .next (s.busError a) := by
  simp only [accessWrite, h, Bool.false_eq_true, if_false]

/-- No register stands at the offset, or one that is not written (R64). -/
theorem accessWrite_of_unwritable (a : BusAddr) (n : BusSize) (v : Word) {off : Offset}
    (hreg : ∀ r, Reg.ofOffset off = some r → r = .status ∨ r = .res ∨ r = .crc) (s : State) :
    accessWrite a n v off s = .next (s.busError a) := by
  unfold accessWrite
  split
  · split
    case h_1 hcmd => simpa using hreg _ hcmd
    case h_2 hopa => simpa using hreg _ hopa
    case h_3 hopb => simpa using hreg _ hopb
    all_goals rfl
  · rfl

theorem accessWrite_cmd (a : BusAddr) (v : Word) (s : State) :
    accessWrite a (.single 4) v 0x00#5 s = executeCommand v (s.answer .accepted) := rfl

theorem accessWrite_opa (a : BusAddr) (v : Word) (s : State) :
    accessWrite a (.single 4) v 0x08#5 s = .next ((s.answer .accepted).setOpa v) := rfl

theorem accessWrite_opb (a : BusAddr) (v : Word) (s : State) :
    accessWrite a (.single 4) v 0x0C#5 s = .next ((s.answer .accepted).setOpb v) := rfl

/-- An access that is not one aligned 4-byte transfer is malformed. -/
theorem malformed_of_ne_or_misaligned {n : BusSize} {off : Nat} (hoff : off < 32) (h : n ≠ .single 4 ∨ off % 4 ≠ 0) :
    (n.isWord && aligned (BitVec.ofNat 5 off)) = false := by
  rw [Bool.and_eq_false_iff]
  refine h.imp (fun hsize => ?_) (fun halign => ?_)
  · rwa [← Bool.not_eq_true, BusSize.isWord_iff]
  · simpa [aligned, Nat.mod_eq_of_lt hoff] using halign

/-! ### One event -/

/-- Every event is served, and the pending list is left as it is. -/
theorem serve_next (e : BusEvent) (s : State) : ∃ t, serve e s = .next t ∧ t.pending = s.pending := by
  obtain ⟨t, ht, _⟩ := serve_effect e s
  obtain ⟨_, hpending, _⟩ := serve_hostSide ht
  exact ⟨t, ht, hpending⟩

/-- A read changes the answers alone (R66). -/
theorem serve_read (a : BusAddr) (n : BusSize) (s : State) :
    ∃ q, serve (.read a n) s = .next { s with responses := q } := by
  cases ha : a.windowOffset with
  | none => exact ⟨s.responses, serve_read_outside ha n s⟩
  | some off =>
    obtain ⟨r, hr⟩ := accessRead_eq_answer a n off s
    exact ⟨r :: s.responses, (serve_read_at ha n s).trans (congrArg _ hr)⟩

theorem executeCommand_responses {w : Word} {s t : State} (h : executeCommand w s = .next t) : t.responses = s.responses := by
  unfold executeCommand at h
  split at h
  · exact (exec_hostSide h).2
  · cases h; rfl

/-- The registers R64 lets be read. -/
theorem accessRead_of_permitted (a : BusAddr) {off : Offset} (hoff : off ∈ [0x04#5, 0x08#5, 0x0C#5, 0x10#5, 0x14#5])
    (s : State) : ∃ v, accessRead a (.single 4) off s = s.answer (.data v) := by
  simp only [List.mem_cons, List.not_mem_nil, or_false] at hoff
  rcases hoff with rfl | rfl | rfl | rfl | rfl <;> exact ⟨_, rfl⟩

/-- The registers R64 lets be written. -/
theorem accessWrite_of_permitted (a : BusAddr) (v : Word) {off : Offset} (hoff : off ∈ [0x00#5, 0x08#5, 0x0C#5]) {s t : State}
    (h : accessWrite a (.single 4) v off s = .next t) : t.responses = .accepted :: s.responses := by
  simp only [List.mem_cons, List.not_mem_nil, or_false] at hoff
  rcases hoff with rfl | rfl | rfl
  · exact executeCommand_responses ((accessWrite_cmd a v s).symm.trans h)
  · cases h; rfl
  · cases h; rfl

/-- A permitted event adds no bus error to the answers. -/
theorem serve_permitted {e : BusEvent} (he : e.permitted = true) {s t : State} (h : serve e s = .next t) (f : Fault)
    (hf : Response.fault f ∈ t.responses) : Response.fault f ∈ s.responses := by
  cases e with
  | reset => cases h; exact hf
  | read a n =>
    cases ha : a.windowOffset with
    | none => cases (serve_read_outside ha n s).symm.trans h; exact hf
    | some off =>
      simp only [BusEvent.permitted, ha, Bool.and_eq_true, beq_iff_eq, decide_eq_true_eq] at he
      obtain ⟨rfl, hoff⟩ := he
      obtain ⟨v, hv⟩ := accessRead_of_permitted a hoff s
      cases (serve_read_at ha _ s).symm.trans h
      simpa [hv] using hf
  | write a n v =>
    cases ha : a.windowOffset with
    | none => cases (serve_write_outside ha n v s).symm.trans h; exact hf
    | some off =>
      simp only [BusEvent.permitted, ha, Bool.and_eq_true, beq_iff_eq, decide_eq_true_eq] at he
      obtain ⟨rfl, hoff⟩ := he
      have hanswers := accessWrite_of_permitted a v hoff ((serve_write_at ha _ v s).symm.trans h)
      simpa [hanswers] using hf

/-! ### Runs -/

/-- A list of events is served to its end, and what waits behind it is left waiting. -/
theorem runSteps_serves (xs : List BusEvent) (s : State) : ∃ t : State, t.pending = [] ∧
    ∀ ys, runSteps xs.length { s with pending := xs ++ ys } = .next { t with pending := ys } := by
  induction xs generalizing s with
  | nil => exact ⟨{ s with pending := [] }, rfl, fun _ => rfl⟩
  | cons e xs ih =>
    obtain ⟨t, ht, _⟩ := serve_next e s
    obtain ⟨u, hu, hrun⟩ := ih t
    exact ⟨u, hu, fun ys => (runSteps_cons ht xs.length (xs ++ ys)).trans (hrun ys)⟩

/-- Reads put among the events change the answers at the end of the run and nothing else. -/
theorem runSteps_interleaved {xs ys zs : List BusEvent} (h : Interleaves xs ys zs) (hreads : ∀ e ∈ ys, ∃ a n, e = .read a n)
    (s : State) (q : List Response) : ∃ t q', runSteps xs.length { s with pending := xs } = .next t ∧
      runSteps zs.length { s with pending := zs, responses := q } = .next { t with responses := q' } := by
  induction h generalizing s q with
  | nil => exact ⟨_, q, rfl, rfl⟩
  | left e _ ih =>
    obtain ⟨t, ht, _⟩ := serve_next e s
    obtain ⟨rs, _, _, hside⟩ := serve_hostSide ht
    obtain ⟨u, q', hx, hz⟩ := ih hreads t (rs ++ q)
    exact ⟨u, q', (runSteps_cons ht _ _).trans hx, (runSteps_cons (hside s.pending q) _ _).trans hz⟩
  | right e _ ih =>
    obtain ⟨a, n, rfl⟩ := hreads e List.mem_cons_self
    obtain ⟨r, hr⟩ := serve_read a n { s with responses := q }
    obtain ⟨u, q', hx, hz⟩ := ih (fun e he => hreads e (List.mem_cons_of_mem _ he)) s r
    exact ⟨u, q', hx, (runSteps_cons hr _ _).trans hz⟩

/-- A run over permitted events adds no bus error to the answers. -/
theorem runSteps_permitted (xs : List BusEvent) (hxs : ∀ e ∈ xs, e.permitted = true) (s : State) :
    ∃ t, runSteps xs.length { s with pending := xs } = .next t ∧ t.pending = [] ∧
      ∀ f, Response.fault f ∈ t.responses → Response.fault f ∈ s.responses := by
  induction xs generalizing s with
  | nil => exact ⟨_, rfl, rfl, fun _ hf => hf⟩
  | cons e xs ih =>
    obtain ⟨t, ht, _⟩ := serve_next e s
    obtain ⟨u, hrun, hu, hfaults⟩ := ih (fun e he => hxs e (List.mem_cons_of_mem _ he)) t
    exact ⟨u, (runSteps_cons ht _ _).trans hrun, hu,
      fun f hf => serve_permitted (hxs e List.mem_cons_self) ht f (hfaults f hf)⟩

/-! ### The statements -/

/-- Settles O6: the access resolves to its offset, and each clause is one case of the access function there. -/
theorem hostAccessFollowsTheAccessFunction : Obligations.HostAccessFollowsTheAccessFunction := by
  intro s a n off rest hoff ha
  have hat := windowOffset_of_eq hoff ha
  refine ⟨fun hread => ?_, fun v hwrite => ?_⟩
  · obtain ⟨r, hr⟩ := accessRead_eq_answer a n (BitVec.ofNat 5 off) { s with pending := rest }
    have answers {r' : Response} (h : accessRead a n (BitVec.ofNat 5 off) { s with pending := rest } =
        { s with pending := rest }.answer r') : r = r' := answer_injective (hr.symm.trans h)
    refine ⟨r, ?_, ?_, ?_, ?_, ?_, ?_, ?_⟩
    · rw [step_of_cons hread, serve_read_at hat, hr]
      rfl
    · rintro rfl rfl; exact answers (accessRead_of_readable a rfl (by rw [BitVec.ofNat_toNat]; rfl))
    · rintro rfl rfl; exact answers (accessRead_of_readable a rfl rfl)
    · rintro rfl rfl; exact answers (accessRead_of_readable a rfl rfl)
    · rintro rfl rfl; exact answers (accessRead_of_readable a rfl rfl)
    · rintro rfl rfl; exact answers (accessRead_of_readable a rfl (by rw [BitVec.ofNat_toNat]; rfl))
    · rintro (hsize | halign | rfl | rfl | rfl)
      · exact answers (accessRead_of_malformed a (malformed_of_ne_or_misaligned hoff (.inl hsize)) _)
      · exact answers (accessRead_of_malformed a (malformed_of_ne_or_misaligned hoff (.inr halign)) _)
      all_goals exact answers (accessRead_of_unreadable a n rfl)
  · rw [step_of_cons hwrite, serve_write_at hat]
    refine ⟨?_, ?_, ?_, ?_⟩
    · rintro rfl rfl; exact accessWrite_cmd a v _
    · rintro rfl rfl; exact accessWrite_opa a v _
    · rintro rfl rfl; exact accessWrite_opb a v _
    · rintro (hsize | halign | rfl | rfl | rfl | rfl | rfl)
      · exact accessWrite_of_malformed a v (malformed_of_ne_or_misaligned hoff (.inl hsize)) _
      · exact accessWrite_of_malformed a v (malformed_of_ne_or_misaligned hoff (.inr halign)) _
      all_goals exact accessWrite_of_unwritable a n v (by decide +revert) _

/-- Settles O7: an address outside the window resolves to no offset, and `serve` then leaves the state. -/
theorem accessOutsideTheWindowIsNotSeen : Obligations.AccessOutsideTheWindowIsNotSeen := by
  intro s a n v rest hout hpending
  have hnone := BusAddr.windowOffset_eq_none.mpr hout
  obtain hread | hwrite := hpending
  · rw [step_of_cons hread, serve_read_outside hnone]
  · rw [step_of_cons hwrite, serve_write_outside hnone]

/-- Settles O9: with nothing pending the step is idle, else it serves the head and leaves the rest. -/
theorem everyStepCompletesAndServesOneEvent : Obligations.EveryStepCompletesAndServesOneEvent := by
  intro s
  cases hpending : s.pending with
  | nil => exact ⟨s, step_of_nil hpending, hpending⟩
  | cons e rest =>
    rw [step_of_cons hpending]
    exact serve_next e { s with pending := rest }

/-- Settles O10: the run over `xs` with `ys` behind it, once for no `ys` and once for the given. -/
theorem laterAccessesDoNotReachBack : Obligations.LaterAccessesDoNotReachBack := by
  intro s xs ys
  obtain ⟨t, hdone, hrun⟩ := runSteps_serves xs s
  refine ⟨t, ?_, hdone, hrun ys⟩
  have halone := hrun []
  rwa [List.append_nil, ← hdone] at halone

/-- Settles O11: the run with the reads among the events ends in the same state but for the answers. -/
theorem readingAgentDisturbsNothing : Obligations.ReadingAgentDisturbsNothing := by
  intro s xs ys zs hzs hreads
  obtain ⟨t, q, hx, hz⟩ := runSteps_interleaved hzs hreads s s.responses
  exact ⟨t, _, hx, hz, rfl, rfl, rfl, rfl, rfl, rfl⟩

/-- Settles O12: the run over the state's own pending list. -/
theorem permittedAccessesGetNoBusError : Obligations.PermittedAccessesGetNoBusError :=
  fun s hpermitted => runSteps_permitted s.pending hpermitted s

/-- Settles O5: the write lands at offset 0, where the access function runs the word it decodes. -/
theorem stepRunsTheDecodedCommand : Obligations.StepRunsTheDecodedCommand := by
  intro s a w i rest ha hpending hdecode
  have hat : a.windowOffset = some 0x00#5 := windowOffset_of_eq (off := 0) (by decide) ha
  rw [step_of_cons hpending, serve_write_at hat, accessWrite_cmd, executeCommand, hdecode]
  rfl

/-- Settles O8: the idle step. -/
theorem stepWithNothingPendingChangesNothing : Obligations.StepWithNothingPendingChangesNothing :=
  fun _ => step_of_nil

/-- Settles O14: serving the reset input and executing SRST both reset the unit, after which ERR is OK already. -/
theorem resetInputHasTheEffectOfSrst : Obligations.ResetInputHasTheEffectOfSrst :=
  fun _ _ hpending => ⟨step_of_cons hpending, step_of_cons hpending⟩

/-- Settles O25: the step of the write is exec of SRST, which leaves what serving the reset input leaves. -/
theorem srstGivesTheResetState : Obligations.SrstGivesTheResetState := by
  refine ⟨decode_encode .srst, fun _ => rfl, fun s a rest ha hpending => ?_⟩
  rw [stepRunsTheDecodedCommand s a _ .srst rest ha hpending (decode_encode .srst)]
  obtain ⟨_, hinput⟩ := resetInputHasTheEffectOfSrst
    { s with pending := .reset :: rest, responses := .accepted :: s.responses } rest rfl
  exact ⟨rfl, hinput.symm⟩

end Sys2Proof.Machine
end

section
/-! The laws of the checksum commands that join two executions (41_checksum.md R107, R108): generate and then check, and a check of
a corrupted half. A byte enters the rounds by XOR and the rounds are injective, so a changed byte changes the checksum. -/

namespace Sys2Proof.Machine

/-! ### A changed byte changes the checksum -/

theorem crcRounds_eight_injective {a b : Byte} (h : crcRounds 8 a = crcRounds 8 b) : a = b := by
  have hdiff : crcRounds 8 (a ^^^ b) = 0#8 := by rw [crcRounds_xor, h, BitVec.xor_self]
  exact BitVec.xor_eq_zero_iff.mp (crcRounds_eight_eq_zero _ hdiff)

theorem crc8Byte_left_injective {c c' b : Byte} (h : crc8Byte c b = crc8Byte c' b) : c = c' :=
  (BitVec.xor_left_inj b).mp (crcRounds_eight_injective h)

theorem crc8Byte_right_injective {c b b' : Byte} (h : crc8Byte c b = crc8Byte c b') : b = b' :=
  (BitVec.xor_right_inj c).mp (crcRounds_eight_injective h)

theorem xor_ne_self {d : Byte} (hd : d ≠ 0#8) (b : Byte) : b ^^^ d ≠ b :=
  fun h => hd ((BitVec.xor_right_inj b).mp (h.trans BitVec.xor_zero.symm))

/-! ### Acceptance -/

/-- The comparison of R108: the checksum byte is that of the two bytes before it. -/
def State.halfAccepted (s : State) : Prop := crc8 crcInit [s.w24cMsb, s.w24cLsb] = s.w24cChk

theorem exec_crcChk16_of_rejected {s : State} (h : ¬s.halfAccepted) : exec .crcChk16 s = .next { s with err := 1#4 } :=
  if_neg h

theorem halfAccepted_of_exec {s t : State} (hexec : exec .crcChk16 s = .next t) (herr : t.err = 0#4) : s.halfAccepted := by
  by_contra hrejected
  rw [exec_crcChk16_of_rejected hrejected] at hexec
  cases hexec
  cases herr

/-- Byte `j` of a word whose one byte `k` is `d`. -/
theorem extract_shiftedByte (d : Byte) {j k : Nat} (hj : j < 3) (hk : k < 3) :
    (BitVec.ofNat 32 (d.toNat * 256 ^ k)).extractLsb' (8 * j) 8 = if j = k then d else 0#8 := by
  have hd := d.isLt
  rw [extract_byte, ← BitVec.toNat_inj, BitVec.toNat_ofNat, BitVec.toNat_ofNat]
  -- the powers become numerals, and each pair is then linear in `d`
  interval_cases j <;> interval_cases k <;> simp <;> omega

/-- A half that differs in one byte from an accepted one is rejected. -/
theorem halfAccepted_xor_byte {s : State} {d : Byte} {k : Nat} (haccepted : s.halfAccepted) (hd : d ≠ 0#8) (hk : k < 3) :
    ¬State.halfAccepted { s with opa := s.opa ^^^ BitVec.ofNat 32 (d.toNat * 256 ^ k) } := by
  intro hcorrupt
  have byte {j : Nat} (hj : j < 3) := extract_shiftedByte d hj hk
  simp only [State.halfAccepted, State.w24cMsb, State.w24cLsb, State.w24cChk, BitVec.extractLsb'_xor, byte (j := 0) (by decide),
    byte (j := 1) (by decide), byte (j := 2) (by decide), crc8_cons, crc8_nil] at haccepted hcorrupt
  obtain rfl | rfl | rfl : k = 0 ∨ k = 1 ∨ k = 2 := (by omega)
  all_goals simp only [Nat.reduceEqDiff, reduceIte, BitVec.xor_zero] at hcorrupt
  · exact xor_ne_self hd _ (hcorrupt.symm.trans haccepted)
  · exact xor_ne_self hd _ (crc8Byte_right_injective (hcorrupt.trans haccepted.symm))
  · exact xor_ne_self hd _ (crc8Byte_right_injective (crc8Byte_left_injective (hcorrupt.trans haccepted.symm)))

/-! ### Generate and check -/

/-- CRC.GEN16 on two bytes, the first in OPA[15:8]. -/
theorem exec_crcGen16_of_bytes (s : State) (msb lsb : Byte) (hopa : s.opa.toNat = msb.toNat * 256 + lsb.toNat) :
    exec .crcGen16 s = .next { s with res := BitVec.ofNat 32 (crc8 0xFF#8 [msb, lsb]).toNat, err := 0#4 } := by
  have hmsb : BitVec.ofNat 8 (s.opa.toNat / 256) = msb := by bv_omega
  have hlsb : BitVec.ofNat 8 s.opa.toNat = lsb := by bv_omega
  rw [exec_crcGen16, hmsb, hlsb]

/-- CRC.CHK16 accepts two bytes beside their checksum. -/
theorem exec_crcChk16_of_packHalf (s : State) (msb lsb : Byte) (hopa : s.opa = packHalf msb lsb (crc8 0xFF#8 [msb, lsb])) :
    exec .crcChk16 s = .next { s with res := BitVec.ofNat 32 (msb.toNat * 256 + lsb.toNat), err := 0#4 } := by
  have hpacked : s.opa.toNat = _ := hopa ▸ toNat_packHalf _ _ _
  have hmsb : BitVec.ofNat 8 (s.opa.toNat / 65536) = msb := by bv_omega
  have hlsb : BitVec.ofNat 8 (s.opa.toNat / 256) = lsb := by bv_omega
  have hchk : s.opa.toNat % 256 = (crc8 0xFF#8 [msb, lsb]).toNat := by omega
  have hword : s.opa.toNat / 256 % 65536 = msb.toNat * 256 + lsb.toNat := by omega
  rw [exec_crcChk16, hmsb, hlsb, hchk, if_pos rfl, hword]

/-! ### The statements -/

/-- Settles O33: the packed half holds the two bytes that were fed and the checksum they gave. -/
theorem checkAcceptsWhatGenerateMakes : Obligations.CheckAcceptsWhatGenerateMakes := by
  intro s msb lsb
  have hword : (BitVec.ofNat 32 (msb.toNat * 256 + lsb.toNat)).toNat = msb.toNat * 256 + lsb.toNat := by bv_omega
  refine ⟨_, _, exec_crcGen16_of_bytes _ msb lsb hword, exec_crcChk16_of_packHalf _ msb lsb ?_, rfl, rfl⟩
  have hchk : BitVec.ofNat 8 (BitVec.ofNat 32 (crc8 0xFF#8 [msb, lsb]).toNat).toNat = crc8 0xFF#8 [msb, lsb] := by bv_omega
  rw [hchk]

/-- Settles O34: CRC.CHK16 answers ERR = 0 on an accepted half only, and no corrupted half is accepted. -/
theorem oneCorruptedByteIsAlwaysDetected : Obligations.OneCorruptedByteIsAlwaysDetected :=
  fun _ _ _ _ hexec herr hd hk =>
    exec_crcChk16_of_rejected (halfAccepted_xor_byte (halfAccepted_of_exec hexec herr) hd hk)

end Sys2Proof.Machine
end

section
/-! The order of the inverse tick conversions (42_tick_conversion.md R145). -/

namespace Sys2Proof.Machine

/-- Settles O42: each tick is the floor of an expression that grows with the operand and is at most 2^31 - 1 in the domain. -/
theorem inverseConversionsAreMonotone : Obligations.InverseConversionsAreMonotone := by
  refine ⟨fun s a b hlo hab hhi => ?_, fun s a b hlo hab hhi => ?_⟩
  · obtain ⟨t, ht, htick⟩ := convT2tick_ticks { s with opa := a } a.toInt ⟨hlo, hab.trans hhi⟩ rfl
    obtain ⟨u, hu, htick'⟩ := convT2tick_ticks { s with opa := b } b.toInt ⟨hlo.trans hab, hhi⟩ rfl
    exact ⟨t, u, ht, hu, by omega, by omega⟩
  · obtain ⟨t, ht, htick⟩ := convRh2tick_ticks { s with opa := a } a.toInt ⟨hlo, hab.trans hhi⟩ rfl
    obtain ⟨u, hu, htick'⟩ := convRh2tick_ticks { s with opa := b } b.toInt ⟨hlo.trans hab, hhi⟩ rfl
    exact ⟨t, u, ht, hu, by omega, by omega⟩

end Sys2Proof.Machine
end

section
/-! The laws of CONV.AH (43_humidity_lut_and_scaler.md R163, R164): the table's value at a temperature is bounded and non-decreasing
for every table of R41, and in the domain RES is that value, scaled by the humidity where it is positive. -/

namespace Sys2Proof.Machine

/-! ### The table's value: its breakpoints, its bound, its order -/

theorem ahInterpolate_breakpoint (lut : AhLut) {i : Nat} (hi : i < 10) : ahInterpolate lut (10000 * i) = lut[i].toNat := by
  by_cases htop : i < 9
  · have hseg := ahInterpolate_segment lut i 0 htop (by decide)
    simpa using hseg
  · obtain rfl : i = 9 := by omega
    exact ahInterpolate_top lut _ (by decide)

theorem ahInterpolate_le_bound {lut : AhLut} (hok : lut.Ok) (u : Nat) : ahInterpolate lut u ≤ 429496 := by
  obtain ⟨hmono, hbound⟩ := hok
  by_cases htop : 90000 ≤ u
  · rw [ahInterpolate_top lut u htop]
    exact_mod_cast hbound 9
  · obtain ⟨i, rem, hi, hrem, rfl⟩ := exists_segment u (by omega)
    rw [ahInterpolate_segment lut i rem hi hrem]
    have hupper : lut[i + 1].toNat ≤ 429496 := hbound ⟨i + 1, by omega⟩
    exact (segment_le_upper _ _ rem (hmono ⟨i, hi⟩) hrem).trans (by exact_mod_cast hupper)

/-- One offset further the value is no smaller: within a segment, over a breakpoint, and at the top. -/
theorem ahInterpolate_le_succ {lut : AhLut} (hok : lut.Ok) (u : Nat) : ahInterpolate lut u ≤ ahInterpolate lut (u + 1) := by
  obtain ⟨hmono, _⟩ := hok
  by_cases htop : 90000 ≤ u
  · rw [ahInterpolate_top lut u htop, ahInterpolate_top lut (u + 1) (by omega)]
  · obtain ⟨i, rem, hi, hrem, rfl⟩ := exists_segment u (by omega)
    have hentries : lut[i].toNat ≤ lut[i + 1].toNat := hmono ⟨i, hi⟩
    rw [ahInterpolate_segment lut i rem hi hrem]
    by_cases hlast : rem + 1 < 10000
    · rw [Nat.add_assoc, ahInterpolate_segment lut i (rem + 1) hi hlast]
      have hrise : ((lut[i + 1].toNat : Int) - lut[i].toNat) * rem ≤ ((lut[i + 1].toNat : Int) - lut[i].toNat) * (rem + 1 : Nat) :=
        mul_le_mul_of_nonneg_left (by omega) (by omega)
      omega
    · have hnext : 10000 * i + rem + 1 = 10000 * (i + 1) := by omega
      rw [hnext, ahInterpolate_breakpoint lut (by omega)]
      exact segment_le_upper _ _ rem hentries hrem

theorem ahInterpolate_mono {lut : AhLut} (hok : lut.Ok) : Monotone (ahInterpolate lut) :=
  monotone_nat_of_le_succ (ahInterpolate_le_succ hok)

theorem ahOffset_mono : Monotone ahOffset := by
  intro t t' ht
  simp only [ahOffset, tLo]
  split <;> split <;> omega

/-! ### The result in the domain -/

/-- The scaled value `r >> 3` at a temperature. -/
def ahScaled (lut : AhLut) (t : Int) : Int := ahInterpolate lut (ahOffset t) / 8

theorem ahProduct_eq_scaled (lut : AhLut) (t h : Int) : ahProduct lut t h = ahScaled lut t * h := ahProduct_eq lut t h

theorem ahScaled_nonneg (lut : AhLut) (t : Int) : 0 ≤ ahScaled lut t :=
  Int.ediv_nonneg (ahInterpolate_nonneg lut _) (by decide)

theorem ahScaled_le_bound {lut : AhLut} (hok : lut.Ok) (t : Int) : ahScaled lut t ≤ 53687 :=
  Int.ediv_le_ediv (by decide) (ahInterpolate_le_bound hok _)

theorem ahScaled_mono {lut : AhLut} (hok : lut.Ok) {t t' : Int} (ht : t ≤ t') : ahScaled lut t ≤ ahScaled lut t' :=
  Int.ediv_le_ediv (by decide) (ahInterpolate_mono hok (ahOffset_mono ht))

theorem ahScaled_breakpoint (lut : AhLut) {t : Int} {i : Nat} (hi : i < 10) (ht : t = -20000 + 10000 * (i : Int)) :
    ahScaled lut t = (lut[i].toNat / 8 : Nat) := by
  have hoff := ahOffset_of_ge (t := t) (by omega)
  have hoff' : ahOffset t = 10000 * i := by omega
  rw [ahScaled, hoff', ahInterpolate_breakpoint lut hi]
  rfl

theorem exec_convAh_scaled {s : State} (hh : 0 < s.opb.toInt) : exec .convAh s =
    exactOrDraw (ahScaled s.ahLut s.opa.toInt * s.opb.toInt ≤ 4294967295)
      (ahScaled s.ahLut s.opa.toInt * s.opb.toInt / 12500) s := exec_convAh_of_pos hh

/-- The product where a humidity below 0 counts as 0: what RES is 12500th of. -/
def ahClampedProduct (lut : AhLut) (t h : Int) : Int := ahScaled lut t * max 0 h

theorem ahClampedProduct_of_nonpos (lut : AhLut) (t : Int) {h : Int} (hh : h ≤ 0) : ahClampedProduct lut t h = 0 := by
  rw [ahClampedProduct, max_eq_left hh, mul_zero]

theorem ahClampedProduct_of_pos (lut : AhLut) (t : Int) {h : Int} (hh : 0 < h) :
    ahClampedProduct lut t h = ahScaled lut t * h := by
  rw [ahClampedProduct, max_eq_right hh.le]

theorem ahClampedProduct_nonneg (lut : AhLut) (t h : Int) : 0 ≤ ahClampedProduct lut t h :=
  mul_nonneg (ahScaled_nonneg lut t) (le_max_left 0 h)

theorem ahClampedProduct_mono {lut : AhLut} (hok : lut.Ok) {t t' h h' : Int} (ht : t ≤ t') (hh : h ≤ h') :
    ahClampedProduct lut t h ≤ ahClampedProduct lut t' h' :=
  mul_le_mul (ahScaled_mono hok ht) (max_le_max_left 0 hh) (le_max_left 0 h) (ahScaled_nonneg lut t')

/-- The clamp moves the product of a humidity below 0 only, which lies in the domain before and after. -/
theorem ahProduct_domain_iff (lut : AhLut) (t h : Int) :
    ahProduct lut t h ≤ 4294967295 ↔ ahClampedProduct lut t h ≤ 4294967295 := by
  rw [ahProduct_eq_scaled]
  by_cases hh : h ≤ 0
  · have hneg : ahScaled lut t * h ≤ 0 := mul_nonpos_of_nonneg_of_nonpos (ahScaled_nonneg lut t) hh
    rw [ahClampedProduct_of_nonpos lut t hh]
    omega
  · rw [ahClampedProduct_of_pos lut t (Int.not_le.mp hh)]

/-- In the domain RES is floor((r >> 3) h / 12500), with 0 for a humidity below 0. -/
theorem convAh_exact (s : State) (hdom : ahProduct s.ahLut s.opa.toInt s.opb.toInt ≤ 4294967295) :
    ∃ x : Word, exec .convAh s = .next { s with res := x, err := 0#4 } ∧
      (x.toNat : Int) = ahClampedProduct s.ahLut s.opa.toInt s.opb.toInt / 12500 := by
  by_cases hh : s.opb.toInt ≤ 0
  · refine ⟨_, exec_convAh_of_nonpos hh, ?_⟩
    rw [ahClampedProduct_of_nonpos _ _ hh]
    rfl
  · have hpos : 0 < s.opb.toInt := Int.not_le.mp hh
    have hprod := ahClampedProduct_nonneg s.ahLut s.opa.toInt s.opb.toInt
    rw [ahProduct_domain_iff] at hdom
    rw [ahClampedProduct_of_pos _ _ hpos] at hprod hdom ⊢
    exact ⟨_, (exec_convAh_scaled hpos).trans (exactOrDraw_exact hdom _ s), toNat_bits32 (by omega) (by omega)⟩

/-- In the domain RES is the word of any natural number found equal to that quotient. -/
theorem convAh_exact_of_eq {s : State} (hdom : ahProduct s.ahLut s.opa.toInt s.opb.toInt ≤ 4294967295) {n : Nat}
    (hn : ahClampedProduct s.ahLut s.opa.toInt s.opb.toInt / 12500 = n) :
    exec .convAh s = .next { s with res := BitVec.ofNat 32 n, err := 0#4 } := by
  obtain ⟨x, hexec, hx⟩ := convAh_exact s hdom
  have hval : x = BitVec.ofNat 32 n := by
    rw [← Int.natCast_inj.mp (hx.trans hn), BitVec.ofNat_toNat, BitVec.setWidth_eq]
  rw [hexec, hval]

/-! ### The statements -/

/-- Settles O44: the scaled value is at most 53687, and 53687 * 80000 fits 32 bits. -/
theorem convAhIsExactUpTo80Percent : Obligations.ConvAhIsExactUpTo80Percent := by
  intro s hok hpos hhi
  have hbound := ahScaled_le_bound hok s.opa.toInt
  have hprod : ahScaled s.ahLut s.opa.toInt * s.opb.toInt ≤ 53687 * s.opb.toInt := by gcongr
  have hdom : ahProduct s.ahLut s.opa.toInt s.opb.toInt ≤ 4294967295 := by
    rw [ahProduct_eq_scaled]
    omega
  obtain ⟨x, hexec, hx⟩ := convAh_exact s hdom
  rw [ahClampedProduct_of_pos _ _ hpos] at hx
  exact ⟨hdom, x, hexec, hx ▸ Int.ediv_le_ediv (by decide) hprod⟩

/-- Settles O45: the product grows with both operands, so the lower pair lies in the domain too and its quotient is no greater. -/
theorem convAhIsMonotone : Obligations.ConvAhIsMonotone := by
  intro s a a' b b' hok ha hb hdom'
  have hprod := ahClampedProduct_mono hok ha hb
  have hdom : ahProduct s.ahLut a.toInt b.toInt ≤ 4294967295 :=
    (ahProduct_domain_iff ..).mpr (hprod.trans ((ahProduct_domain_iff ..).mp hdom'))
  obtain ⟨x, hexec, hx⟩ := convAh_exact { s with opa := a, opb := b } hdom
  obtain ⟨x', hexec', hx'⟩ := convAh_exact { s with opa := a', opb := b' } hdom'
  refine ⟨x, x', hexec, hexec', ?_⟩
  have hres := Int.ediv_le_ediv (c := 12500) (by decide) hprod
  rw [← hx, ← hx'] at hres
  exact_mod_cast hres

/-- Settles O46: the three laws are the result in the domain, where it vanishes, where the temperature is clamped, and at a
breakpoint, where the two humidities are 8 and 1 times 12500. -/
theorem convAhBoundaryLaws : Obligations.ConvAhBoundaryLaws := by
  refine ⟨fun s hdom => ?_, fun s a b hdom hclamped => ?_, fun s i hok ht => ?_⟩
  · obtain ⟨x, hexec, hx⟩ := convAh_exact s hdom
    refine ⟨_, hexec, ?_⟩
    rw [← BitVec.toNat_inj, ahProduct_eq_scaled]
    by_cases hh : s.opb.toInt ≤ 0
    · rw [ahClampedProduct_of_nonpos _ _ hh] at hx
      simp only [hh, true_or, iff_true]
      exact_mod_cast hx
    · rw [ahClampedProduct_of_pos _ _ (Int.not_le.mp hh)] at hx
      simp only [BitVec.toNat_zero]
      omega
  · have hsame : ahScaled s.ahLut b.toInt = ahScaled s.ahLut a.toInt := by
      unfold ahScaled
      obtain ⟨ha, hb⟩ | ⟨ha, hb⟩ := hclamped
      · rw [ahInterpolate_of_le_tLo _ ha, ahInterpolate_of_le_tLo _ hb]
      · rw [ahInterpolate_of_tHi_le _ ha, ahInterpolate_of_tHi_le _ hb]
    have hdom' : ahProduct s.ahLut b.toInt s.opb.toInt ≤ 4294967295 := by
      rwa [ahProduct_eq_scaled, hsame, ← ahProduct_eq_scaled]
    obtain ⟨x, hexec, hx⟩ := convAh_exact { s with opa := a } hdom
    obtain ⟨y, hexec', hy⟩ := convAh_exact { s with opa := b } hdom'
    refine ⟨_, _, hexec, hexec', BitVec.eq_of_toNat_eq (Int.natCast_inj.mp ?_)⟩
    simp only [hy, hx, ahClampedProduct, hsame]
  · have hr := ahScaled_breakpoint s.ahLut i.isLt ht
    refine ⟨fun hh hfits => ?_, fun hh => ?_⟩
    · refine convAh_exact_of_eq ?_ ?_
      · rw [ahProduct_eq_scaled, hr, hh]
        exact_mod_cast hfits
      · rw [ahClampedProduct_of_pos _ _ (by omega), hr, hh]
        omega
    · have hbound : s.ahLut[i.val].toNat ≤ 429496 := hok.2 i
      refine convAh_exact_of_eq ?_ ?_
      · rw [ahProduct_eq_scaled, hr, hh]
        omega
      · rw [ahClampedProduct_of_pos _ _ (by omega), hr, hh]
        omega

end Sys2Proof.Machine
end

section
/-! The laws of the scaler (43_humidity_lut_and_scaler.md R174): both directions are affine maps rounded toward zero. A result is
within one unit of the exact quotient, on the side of zero, and the laws follow from these inequalities. -/

namespace Sys2Proof.Machine

/-- Rounding toward zero, by its remainder, which has the dividend's sign. -/
theorem tdiv_remainder (a : Int) {b : Int} (hb : 0 < b) :
    (0 ≤ a ∧ 0 ≤ a - b * tdiv a b ∧ a - b * tdiv a b < b) ∨ (a < 0 ∧ -b < a - b * tdiv a b ∧ a - b * tdiv a b ≤ 0) := by
  have hdiv (c : Int) := And.intro (Int.mul_ediv_self_le (x := c) hb.ne') (Int.lt_mul_ediv_self_add (x := c) hb)
  by_cases ha : 0 ≤ a
  · have hquot := hdiv a
    rw [tdiv_of_nonneg ha]
    omega
  · have hquot := hdiv (-a)
    rw [tdiv_of_neg (Int.not_le.mp ha), mul_neg]
    omega

/-- In its range CONV.C2F gives the formula of R170 as a signed number. -/
theorem convC2f_scales (s : State) (c : Int) (hdom : -291000 ≤ c ∧ c ≤ 291000) (hopa : s.opa.toInt = c) :
    ∃ u, exec .convC2f s = .next u ∧ u.res.toInt = tdiv (9 * c) 5 + 32000 := by
  subst hopa
  have hrem := tdiv_remainder (9 * s.opa.toInt) (b := 5) (by decide)
  exact ⟨_, (exec_convC2f s).trans (exactOrDraw_exact hdom _ s), toInt_bits32 (by omega) (by omega)⟩

/-- In its range CONV.F2C gives the formula of R172 as a signed number. -/
theorem convF2c_scales (s : State) (f : Int) (hdom : -3571000 ≤ f ∧ f ≤ 3635000) (hopa : s.opa.toInt = f) :
    ∃ u, exec .convF2c s = .next u ∧ u.res.toInt = tdiv (5 * (f - 32000)) 9 := by
  subst hopa
  have hrem := tdiv_remainder (5 * (s.opa.toInt - 32000)) (b := 9) (by decide)
  exact ⟨_, (exec_convF2c s).trans (exactOrDraw_exact hdom _ s), toInt_bits32 (by omega) (by omega)⟩

/-- Settles O49: each result is its formula, and all four laws are linear in the quotients and their remainders. -/
theorem scalerRoundTripsAndOrder : Obligations.ScalerRoundTripsAndOrder := by
  have c2f (c : Int) := tdiv_remainder (9 * c) (b := 5) (by decide)
  have f2c (f : Int) := tdiv_remainder (5 * (f - 32000)) (b := 9) (by decide)
  refine ⟨fun s c hlo hhi => ?_, fun s f hlo hhi => ?_, fun s a b hlo hab hhi => ?_, fun s a b hlo hab hhi => ?_⟩
  · have hc := c2f c
    obtain ⟨u, hu, hfahr⟩ := convC2f_scales { s with opa := bits32 c } c ⟨hlo, hhi⟩ (toInt_bits32 (by omega) (by omega))
    have hf := f2c u.res.toInt
    obtain ⟨v, hv, hcels⟩ := convF2c_scales { u with opa := u.res } u.res.toInt (by omega) rfl
    exact ⟨u, v, hu, hv, by omega, by omega⟩
  · have hf := f2c f
    obtain ⟨u, hu, hcels⟩ := convF2c_scales { s with opa := bits32 f } f (by omega) (toInt_bits32 (by omega) (by omega))
    have hc := c2f u.res.toInt
    obtain ⟨v, hv, hfahr⟩ := convC2f_scales { u with opa := u.res } u.res.toInt (by omega) rfl
    exact ⟨u, v, hu, hv, by omega, by omega⟩
  · have ha := c2f a
    have hb := c2f b
    obtain ⟨t, ht, hfahr⟩ := convC2f_scales { s with opa := bits32 a } a (by omega) (toInt_bits32 (by omega) (by omega))
    obtain ⟨u, hu, hfahr'⟩ := convC2f_scales { s with opa := bits32 b } b (by omega) (toInt_bits32 (by omega) (by omega))
    exact ⟨t, u, ht, hu, by omega, by omega⟩
  · have ha := f2c a
    have hb := f2c b
    obtain ⟨t, ht, hcels⟩ := convF2c_scales { s with opa := bits32 a } a (by omega) (toInt_bits32 (by omega) (by omega))
    obtain ⟨u, hu, hcels'⟩ := convF2c_scales { s with opa := bits32 b } b (by omega) (toInt_bits32 (by omega) (by omega))
    exact ⟨t, u, ht, hu, by omega, by omega⟩

end Sys2Proof.Machine
end
